-- ==== Sys2Proof/Word.lean ====
section
/-! DEFINITION. The word, the byte and a piece of text, the types everything else is built from. -/

namespace Sys2Proof

/-- A 16-bit value: the width of `sr` (R10), of a register (R30) and of an ALU result (R4, `XLEN = 16`). -/
abbrev Word := BitVec 16

/-- One byte: a character of the assembly text, or a cell of memory. -/
abbrev Byte := BitVec 8

/-- A run of characters of the assembly text (R2: instructions are text), one byte a character (ASCII). -/
abbrev Text := List Byte

/-- The program counter (R33, the open parameter `PC`): a position in the program text, counted in lines.
DESIGN CHOICE, log 3: the spec asks only that "the next instruction in text order" and "the instruction at label L" exist. -/
abbrev PC := Nat

end Sys2Proof
end

