-- ==== Sys2Proof/Syntax.lean ====
section
/-! DEFINITION. The instructions of the spec as terms: registers, operand shapes, conditions, and `Instr`, one constructor
per row of spec/opcode_table.json (R76). -/

namespace Sys2Proof

/-- The registers of the register file, `sr` apart. `r1 r2 r3 r7` and `lh ah sh ph` are named by the source (R30, R31);
`r4 r5 r6` (K2) and the low members `ll al sl pl` (K3) are PRESUMED, log 5 (unsafe). -/
inductive FileReg
  | r1 | r2 | r3 | r4 | r5 | r6 | r7
  | lh | ll | ah | al | sh | sl | ph | pl
deriving DecidableEq, Repr

/-- A register operand: `sr` "can be directly manipulated like any other register" (R72). -/
inductive Reg
  | sr
  | file (g : FileReg)
deriving DecidableEq, Repr

/-- Operand shapes S1, S2, S3 of a writing (arithmetic or logical) instruction (R68, R87). -/
inductive WriteOps
  | s1 (rd : Reg) (imm : Word)
  | s2 (rd rs : Reg) (imm : Word)
  | s3 (rd ra rb : Reg)
deriving DecidableEq, Repr

/-- Operand shapes S1 and S4 of a compare or test instruction (R68, R87). -/
inductive TestOps
  | s1 (ra : Reg) (imm : Word)
  | s4 (ra rb : Reg)
deriving DecidableEq, Repr

/-- The "status register update source field" of an ALU instruction (R81). -/
inductive UpdateSource
  | alu | shift | none
deriving DecidableEq, Repr

/-- A shift operation: a member of the open set `SHIFT_OPS` (R102), known by a number only. -/
structure ShiftSpec where
  code : Nat
deriving DecidableEq, Repr

/-- What every ALU instruction carries beside its operands: the update source (R81) and an optional shift component (R102).
Neither has a spelling in the source. -/
structure AluControl where
  update : UpdateSource
  shift  : Option ShiftSpec
deriving DecidableEq, Repr

/-- The control of every instruction "written as in the source's listings": `u = alu`, no shift (R81, R102). -/
def AluControl.plain : AluControl := ⟨.alu, Option.none⟩

/-- The condition codes: the eleven the source spells (R71), then the three signed ones whose spelling is the open
parameter `SIGNED_COND_SPELLING` (R133). -/
inductive Cond
  | eq | ne | negSet | negClear | carrySet | carryClear | overflowSet | overflowClear
  | unsignedHigher | unsignedLowerOrSame | signedGreaterOrEqual
  | signedLess | signedGreater | signedLessOrEqual
deriving DecidableEq, Repr

/-- The four address register pairs (R31; link, address, stack pointer and program counter by general knowledge K3). -/
inductive AddrPair
  | link | address | stack | program
deriving DecidableEq, Repr, Inhabited

/-- Where `LDEA` writes (R111 leaves it open): one register, or both members of an address register pair (K5). Log 17. -/
inductive LeaDest
  | reg (r : Reg)
  | pair (p : AddrPair)
deriving DecidableEq, Repr

/-- The address operand of `LOAD` and `LDEA`: its text as written. Its syntax is not in the source (R110), so the text is
interpreted by the open parameters of R52 only. Log 16. -/
abbrev AddrOperand := Text

/-- A label: an identifier of letters, digits and `_` (R67). -/
abbrev Label := Text

/-- The instructions: exactly the twenty mnemonics the source spells (R76), in the table's order. -/
inductive Instr
  | addi (o : WriteOps) (c : AluControl)
  | subi (o : WriteOps) (c : AluControl)
  | adci (o : WriteOps) (c : AluControl)
  | sbci (o : WriteOps) (c : AluControl)
  | addr (o : WriteOps) (c : AluControl)
  | andi (o : WriteOps) (c : AluControl)
  | orri (o : WriteOps) (c : AluControl)
  | xori (o : WriteOps) (c : AluControl)
  | cmpi (o : TestOps) (c : AluControl)
  | cmpr (o : TestOps) (c : AluControl)
  | tsai (o : TestOps) (c : AluControl)
  | tsar (o : TestOps) (c : AluControl)
  | tsxi (o : TestOps) (c : AluControl)
  | tsxr (o : TestOps) (c : AluControl)
  | load (rd : Reg) (a : AddrOperand)
  | ldea (d : LeaDest) (a : AddrOperand)
  | bran (cc : Cond) (l : Label)
  | wait
  | halt
  | rete
deriving DecidableEq, Repr

/-- One line of a program: assembly text (R2, R67), or an instruction the spec names and gives no spelling, as a term (R65: a model
"works on instruction terms directly"; the update source and shifts R81, R102, the signed conditions R133, an address register
pair as `LDEA`'s destination R111), or a coprocessor operation, the class without a mnemonic of R76, by its opcode (R143). Log 41. -/
inductive Line
  | text (t : Text)
  | term (i : Instr)
  | coprocessor (opcode : Word)
deriving DecidableEq, Repr

end Sys2Proof
end

