-- ==== Sys2Proof/Machine/Types.lean ====
section
/-! DEFINITION. The data types the configuration and the state are made of: flags, the register file, priorities, traps,
the environment's events, address calculations. -/

namespace Sys2Proof.Machine

/-- The condition flags, bits 0 to 3 of `sr` (R13 to R16). -/
structure Flags where
  z : Bool
  n : Bool
  c : Bool
  v : Bool
deriving DecidableEq, Repr

/-- The register file: general registers (R30) and the members of the address register pairs (R31), 16 bits each. -/
structure RegFile where
  r1 : Word
  r2 : Word
  r3 : Word
  r4 : Word
  r5 : Word
  r6 : Word
  r7 : Word
  lh : Word
  ll : Word
  ah : Word
  al : Word
  sh : Word
  sl : Word
  ph : Word
  pl : Word
deriving DecidableEq, Repr

/-- The priority of an interrupt request (R35, R154). `other` exists only under `LEVEL4`. -/
inductive Priority
  | low | medium | high | other | nmi
deriving DecidableEq, Repr

/-- The traps the source names or implies (R150). -/
inductive TrapKind
  | privilegeViolation
  | addressOverflow
  | trace
  | interrupt (p : Priority)
deriving DecidableEq, Repr

/-- One value for each kind of trap (R150). -/
structure PerTrap (α : Type) where
  privilegeViolation : α
  addressOverflow : α
  trace : α
  low : α
  medium : α
  high : α
  other : α
  nmi : α
deriving DecidableEq, Repr

/-- What the environment does between two steps of the CPU (R3, R35, R156, R180). Log 19. -/
inductive EnvEvent
  /-- Nothing: the CPU goes on. -/
  | proceed
  /-- A request of this priority is raised and stays pending. -/
  | raise (p : Priority)
  /-- A pending request of this priority is withdrawn. -/
  | withdraw (p : Priority)
  /-- This is the boundary at which a pending unmasked request is taken (R156: "at this boundary or a later one"). -/
  | accept
  /-- The CPU is reset (R180). -/
  | reset
deriving DecidableEq, Repr

/-- An address (R50): the segment part, held in the high member of an address register pair, and the offset part, held elsewhere. The
widths of the parts and of the whole are open: the offset is counted from the segment's start without a bound, and
`Config.place` makes a place of memory of the two. Log 16. -/
structure Address where
  segment : Word
  offset  : Int
deriving DecidableEq, Repr

/-- Which instruction performs an address calculation. R52 leaves open which calculations count for bit A. For `LDEA` the free
`Config.addrOverflow` decides (log 17). The program counter's own increment and a branch's target never count here: DESIGN
CHOICE, log 42 (unsafe). -/
inductive CalcKind
  | load | ldea
deriving DecidableEq, Repr

/-- An address calculation (R51, R52): the instruction, its operand's text, and the registers it may draw on (R50). `sr` is no
part of it: of `sr` only A and P bear on memory (R61). In protected mode too it may draw on `lh`, `ah`, `sh`, `ph`: R57 for
accesses, DESIGN CHOICE for `LDEA`, log 43. -/
structure AddressCalc where
  kind    : CalcKind
  operand : AddrOperand
  regs    : RegFile
deriving DecidableEq, Repr

/-- Where a trap's saved return point lies, where R160 leaves it open: at the instruction itself or after it. -/
inductive ReturnPoint
  | same | next
deriving DecidableEq, Repr

/-- What an operand read of `sr` gives in bits 7:4 (R17, D4): any value (the default), the stored bits, or zero. -/
inductive ReservedRead
  | draw | stored | zero
deriving DecidableEq, Repr

/-- Byte order of a memory access (R53, part of `MEM`). -/
inductive ByteOrder
  | big | little
deriving DecidableEq, Repr

/-- The width `LOAD` moves and how it fills the register (R55, part of `MEM`). -/
inductive LoadWidth
  | word | byteZero | byteSign
deriving DecidableEq, Repr

end Sys2Proof.Machine
end

