-- ==== Sys2Proof/Config.lean ====
section
/-! DEFINITION. The open parameters of 00_scope.md section 5. Those that are plain data form `Params`, a field of `State`, so
that every statement about a state holds for every value of them; those over unbounded domains are opaque constants. -/

namespace Sys2Proof

open Sys2Proof.Machine

/-- The parameter `MEM` (R53 to R56): byte order, load width, alignment, and the address ranges no access is admitted to
(base and size). Log 12. -/
structure MemParams where
  byteOrder : ByteOrder
  loadWidth : LoadWidth
  alignment : Nat
  holes     : List (Nat × Nat)
deriving DecidableEq, Repr

/-- The implementation's plain-data parameters. No instruction and no event changes them. Logs 7 to 12, 14. -/
structure Params where
  /-- `HAS_HALT` (R5). -/
  hasHalt : Bool
  /-- `HAS_TRACE` (R6). -/
  hasTrace : Bool
  /-- `LEVEL4` (R154, D40): whether maskable requests of priority `other` exist. -/
  level4 : Bool
  /-- `RESERVED_READ` (R17). -/
  reservedRead : ReservedRead
  /-- `ENTRY_MASK` (R159): for each kind of trap, the new mask for each of the eight old ones. -/
  entryMask : PerTrap (Vector (BitVec 3) 8)
  /-- `VECTOR` (R160). -/
  vector : PerTrap PC
  /-- Return point of `PrivilegeViolation` (R160, U39). -/
  privilegeReturn : ReturnPoint
  /-- Return point of `AddressOverflow` (R160, U39). -/
  overflowReturn : ReturnPoint
  /-- Return point of an interrupt that ends a `WAIT` (R160, U39). -/
  waitReturn : ReturnPoint
  /-- `RESET_SR` (R36, R181); bit 13 is ignored, since reset clears H. -/
  resetSr : Word
  /-- `RESET_ENTRY` (R182). -/
  resetEntry : PC
  /-- `MEM` (R53 to R56). -/
  mem : MemParams
deriving DecidableEq, Repr

/-- The draw in bits 7:4 of an operand read of `sr` (R17, D4): a fresh value for each count, whatever is stored. Free value,
log 14. -/
opaque Config.reservedDraw : Nat → BitVec 4 → BitVec 4

/-- `SHIFT_OPS` (R102): the two operands of an ALU instruction after its shift component has acted on them. Free, log 15. -/
opaque Config.shiftOps : ShiftSpec → Word → Word → Word × Word

/-- `SHIFT_FLAGS` (R102): the flags a shift sets, from its operands and the old flags. Free, log 15. -/
opaque Config.shiftFlags : ShiftSpec → Word → Word → BitVec 4 → BitVec 4

/-- `ADDR_OVERFLOW` (R51, R52): whether an address calculation overflows or underflows. Free, log 16. -/
opaque Config.addrOverflow : AddressCalc → Bool

/-- The address register pair an operand forms its address from (R50; the operand's syntax is open, R110). Free, log 16. -/
opaque Config.addrPair : AddrOperand → AddrPair

/-- What a calculation that does not overflow adds to the offset its pair holds (R52 "base plus offset, pre- or
post-modification", R110 step 4). Free, log 16. -/
opaque Config.displacement : AddressCalc → Int

/-- The offset part of the wrapped address of a calculation that overflows (R51, R52 `wrap`). Free, log 16. -/
opaque Config.wrapOffset : AddressCalc → Int

/-- The place in memory of an address: the widths of the segment and of the offset, and how the two form the whole, are open (R31,
R50). Free, log 16. -/
opaque Config.place : Address → Nat

/-- The part of a computed address that `LDEA` writes into a register (R111: "What is computed and where it is written is
open"). Free, log 17. -/
opaque Config.addressPart : Address → Reg → Word

/-- `COPROC` (R143, D16): what a coprocessor operation leaves in the register file, or `none` where the parameter has no value for it.
The number is that of the draw, for what the coprocessor remembers. It may draw on every register, in either mode: log 45. Free, log
29. -/
opaque Config.coproc : Nat → Word → RegFile → Option RegFile

/-- `CAUSE_CODE` (R150, D39): a number for each kind of trap. No rule records it anywhere. Free, log 10. -/
opaque Config.causeCode : TrapKind → Nat

end Sys2Proof
end

