-- ==== Sys2Proof/Machine/Chars.lean ====
section
/-! DEFINITION. The characters of the assembly text: bytes of ASCII characters, white space, label characters, digits. -/

namespace Sys2Proof

/-- The byte of an ASCII character. -/
def ascii (c : Char) : Byte := BitVec.ofNat 8 c.toNat

/-- White space inside a line: space and tab. -/
def isSpace (b : Byte) : Bool := b == 0x20#8 || b == 0x09#8

/-- A character of a label: letters, digits and `_` (R67). -/
def isLabelChar (b : Byte) : Bool :=
  (0x30#8 ≤ b && b ≤ 0x39#8) || (0x41#8 ≤ b && b ≤ 0x5A#8) || (0x61#8 ≤ b && b ≤ 0x7A#8) || b == 0x5F#8

/-- The value of a hexadecimal digit (R69: `0xF1FF`; lower-case digits admitted too, log 2). -/
def hexDigit (b : Byte) : Option Nat :=
  if 0x30#8 ≤ b && b ≤ 0x39#8 then some (b.toNat - 0x30)
  else if 0x41#8 ≤ b && b ≤ 0x46#8 then some (b.toNat - 0x37)
  else if 0x61#8 ≤ b && b ≤ 0x66#8 then some (b.toNat - 0x57)
  else none

/-- The value of a decimal digit (R69: `#100`). -/
def decDigit (b : Byte) : Option Nat :=
  if 0x30#8 ≤ b && b ≤ 0x39#8 then some (b.toNat - 0x30) else none

/-- The character of a hexadecimal digit, upper case as the listings write it (R69). -/
def hexChar (n : Nat) : Byte :=
  if n < 10 then BitVec.ofNat 8 (n + 0x30) else BitVec.ofNat 8 (n + 0x37)

end Sys2Proof
end

