-- ==== Sys2Proof/WellFormed.lean ====
section
/-! DEFINITION. Which instruction terms the spec admits. Shapes and registers are right by their types; what is left are
the update source, the labels and the address operands. -/

namespace Sys2Proof

/-- `u = shift` needs a shift component: without one the instruction is `refuse(not_in_spec)` (R102). -/
def AluControl.wf (c : AluControl) : Bool := c.update != .shift || c.shift.isSome

/-- A label is a non-empty identifier (R67). -/
def labelWf (l : Label) : Bool := !l.isEmpty && l.all isLabelChar

/-- An address operand's text: not empty, no `;` (that starts a comment, R67), no white space at either end. -/
def addrOperandWf (a : AddrOperand) : Bool :=
  !a.isEmpty && a.all (· != ascii ';') && !(a.head?.any isSpace) && !(a.getLast?.any isSpace)

/-- The instruction terms the spec admits (R87, R102, R67). -/
def WellFormed : Instr → Bool
  | .addi _ c | .subi _ c | .adci _ c | .sbci _ c | .addr _ c => c.wf
  | .andi _ c | .orri _ c | .xori _ c => c.wf
  | .cmpi _ c | .cmpr _ c => c.wf
  | .tsai _ c | .tsar _ c | .tsxi _ c | .tsxr _ c => c.wf
  | .load _ a => addrOperandWf a
  | .ldea _ a => addrOperandWf a
  | .bran _ l => labelWf l
  | .wait => true
  | .halt => true
  | .rete => true

end Sys2Proof
end

