-- ==== Sys2Proof/Decode.lean ====
section
/-! DEFINITION. The decoder of the assembly text (R2, R65: the spec's instructions are text, no machine word is given) and,
after it, the encoder, both written from R67 to R74. Total on any bytes; a text outside the spec is rejected by name. -/

namespace Sys2Proof

/-- Why a line is not an instruction of the spec (R74: `refuse(not_in_spec)`), and the blank line, which is none. -/
inductive DecodeError
  /-- Nothing but white space and a comment stands on the line (R67). -/
  | noInstruction
  /-- The mnemonic is not one of the twenty the source spells (R73, R74, R76). -/
  | unknownMnemonic
  /-- A condition suffix on a mnemonic other than `BRAN` (R70). -/
  | suffixNotAdmitted
  /-- A `BRAN` with no condition suffix (R70). -/
  | branWithoutCondition
  /-- A condition spelling outside R71 (R134). -/
  | unknownCondition
  /-- The operands are not in a shape R68 and R87 admit for the class. -/
  | shapeNotAdmitted
  /-- A register name outside `RegName` (R72). -/
  | unknownRegister
  /-- An immediate that is not `#` and a number of 16 bits (R69). -/
  | badImmediate
  /-- A branch operand that is not an identifier (R67). -/
  | badLabel
  /-- An empty address operand (R110). -/
  | badAddressOperand
  /-- A line given as an instruction term that `WellFormed` excludes (R67, R102). -/
  | illFormedTerm
deriving DecidableEq, Repr

/-- The text of a list of characters. -/
def chars (cs : List Char) : Text := cs.map ascii

/-- The twenty mnemonics (R76). -/
inductive Mnemonic
  | addi | subi | adci | sbci | addr | andi | orri | xori | cmpi | cmpr
  | tsai | tsar | tsxi | tsxr | load | ldea | bran | wait | halt | rete
deriving DecidableEq, Repr

/-- The spelling of a mnemonic: four upper-case letters (R67, R76). -/
def Mnemonic.text : Mnemonic → Text
  | .addi => chars ['A', 'D', 'D', 'I']
  | .subi => chars ['S', 'U', 'B', 'I']
  | .adci => chars ['A', 'D', 'C', 'I']
  | .sbci => chars ['S', 'B', 'C', 'I']
  | .addr => chars ['A', 'D', 'D', 'R']
  | .andi => chars ['A', 'N', 'D', 'I']
  | .orri => chars ['O', 'R', 'R', 'I']
  | .xori => chars ['X', 'O', 'R', 'I']
  | .cmpi => chars ['C', 'M', 'P', 'I']
  | .cmpr => chars ['C', 'M', 'P', 'R']
  | .tsai => chars ['T', 'S', 'A', 'I']
  | .tsar => chars ['T', 'S', 'A', 'R']
  | .tsxi => chars ['T', 'S', 'X', 'I']
  | .tsxr => chars ['T', 'S', 'X', 'R']
  | .load => chars ['L', 'O', 'A', 'D']
  | .ldea => chars ['L', 'D', 'E', 'A']
  | .bran => chars ['B', 'R', 'A', 'N']
  | .wait => chars ['W', 'A', 'I', 'T']
  | .halt => chars ['H', 'A', 'L', 'T']
  | .rete => chars ['R', 'E', 'T', 'E']

/-- Every mnemonic, in the table's order. -/
def mnemonics : List Mnemonic :=
  [.addi, .subi, .adci, .sbci, .addr, .andi, .orri, .xori, .cmpi, .cmpr,
   .tsai, .tsar, .tsxi, .tsxr, .load, .ldea, .bran, .wait, .halt, .rete]

/-- The spelling of a register name: lower case (R67, R72; `r4 r5 r6` and the low members PRESUMED, log 5). -/
def Reg.text : Reg → Text
  | .sr => chars ['s', 'r']
  | .file .r1 => chars ['r', '1']
  | .file .r2 => chars ['r', '2']
  | .file .r3 => chars ['r', '3']
  | .file .r4 => chars ['r', '4']
  | .file .r5 => chars ['r', '5']
  | .file .r6 => chars ['r', '6']
  | .file .r7 => chars ['r', '7']
  | .file .lh => chars ['l', 'h']
  | .file .ll => chars ['l', 'l']
  | .file .ah => chars ['a', 'h']
  | .file .al => chars ['a', 'l']
  | .file .sh => chars ['s', 'h']
  | .file .sl => chars ['s', 'l']
  | .file .ph => chars ['p', 'h']
  | .file .pl => chars ['p', 'l']

/-- Every register of the register file. -/
def fileRegs : List FileReg :=
  [.r1, .r2, .r3, .r4, .r5, .r6, .r7, .lh, .ll, .ah, .al, .sh, .sl, .ph, .pl]

/-- Every register name (`RegName`). -/
def regs : List Reg := .sr :: fileRegs.map .file

/-- The spelling of a condition code (R71); the three signed ones of R133 have none. -/
def Cond.text : Cond → Option Text
  | .eq => some (chars ['=', '='])
  | .ne => some (chars ['!', '='])
  | .negSet => some (chars ['<', '0'])
  | .negClear => some (chars ['>', '=', '0'])
  | .carrySet => some (chars ['C', 'S'])
  | .carryClear => some (chars ['C', 'C'])
  | .overflowSet => some (chars ['V', 'S'])
  | .overflowClear => some (chars ['V', 'C'])
  | .unsignedHigher => some (chars ['>'])
  | .unsignedLowerOrSame => some (chars ['<', '='])
  | .signedGreaterOrEqual => some (chars ['>', '='])
  | .signedLess => none
  | .signedGreater => none
  | .signedLessOrEqual => none

/-- The conditions the source spells (R71). -/
def spelledConds : List Cond :=
  [.eq, .ne, .negSet, .negClear, .carrySet, .carryClear, .overflowSet, .overflowClear,
   .unsignedHigher, .unsignedLowerOrSame, .signedGreaterOrEqual]

/-! ### The parts of a line -/

/-- White space at the start and at the end of a text dropped. -/
def trim (t : Text) : Text := ((t.dropWhile isSpace).reverse.dropWhile isSpace).reverse

/-- The line without its comment: `;` starts a comment that runs to the end of the line (R67). -/
def cutComment (t : Text) : Text := t.takeWhile (· != ascii ';')

/-- The text before the first byte `sep`, and the text after it if there is one. -/
def splitFirst (sep : Byte) : Text → Text × Option Text
  | [] => ([], none)
  | b :: bs =>
    if b == sep then ([], some bs)
    else
      let rest := splitFirst sep bs
      (b :: rest.1, rest.2)

/-- The pieces of a text between its bytes `sep`. -/
def splitAll (sep : Byte) : Text → List Text
  | [] => [[]]
  | b :: bs =>
    if b == sep then [] :: splitAll sep bs
    else
      match splitAll sep bs with
      | [] => [[b]]
      | w :: ws => (b :: w) :: ws

/-- The mnemonic of a text. -/
def parseMnemonic (t : Text) : Option Mnemonic := mnemonics.find? (fun m => m.text == t)

/-- The register a text names. -/
def parseReg (t : Text) : Option Reg := regs.find? (fun r => r.text == t)

/-- The condition a text spells. -/
def parseCond (t : Text) : Option Cond := spelledConds.find? (fun c => c.text == some t)

/-- The number a text of digits writes in a base, after the digits already read gave `acc`. -/
def parseDigits (base : Nat) (digit : Byte → Option Nat) : Nat → Text → Option Nat
  | acc, [] => some acc
  | acc, b :: bs =>
    match digit b with
    | some d => parseDigits base digit (acc * base + d) bs
    | none => none

/-- The number after the `#` of an immediate: hexadecimal with the prefix `0x`, else decimal (R69). -/
def parseNumber (t : Text) : Option Nat :=
  if t.take 2 == chars ['0', 'x'] then
    if (t.drop 2).isEmpty then none else parseDigits 16 hexDigit 0 (t.drop 2)
  else
    if t.isEmpty then none else parseDigits 10 decDigit 0 t

/-- An immediate: `#` and a number that 16 bits hold, used as it stands (R69). -/
def parseImm (t : Text) : Option Word :=
  if t.head? == some (ascii '#') then
    match parseNumber t.tail with
    | some n => if n < 65536 then some (BitVec.ofNat 16 n) else none
    | none => none
  else none

/-- Whether an operand is written as an immediate. -/
def looksImmediate (t : Text) : Bool := t.head? == some (ascii '#')

/-- A register operand. -/
def regOperand (t : Text) : Except DecodeError Reg :=
  match parseReg t with
  | some r => .ok r
  | none => .error .unknownRegister

/-- An immediate operand. -/
def immOperand (t : Text) : Except DecodeError Word :=
  match parseImm t with
  | some v => .ok v
  | none => .error .badImmediate

/-- The operands of a line, separated by commas (R67), each without white space around it. -/
def operandTexts (t : Text) : List Text := (splitAll (ascii ',') t).map trim

/-- The operands of a writing instruction: shape S1, S2 or S3 (R68, R87), told apart by the operand list (R73). -/
def parseWriteOps (t : Text) : Except DecodeError WriteOps :=
  match operandTexts t with
  | [d, x] =>
    if looksImmediate x then do
      let rd ← regOperand d
      let v ← immOperand x
      return .s1 rd v
    else .error .shapeNotAdmitted
  | [d, x, y] =>
    if looksImmediate y then do
      let rd ← regOperand d
      let rs ← regOperand x
      let v ← immOperand y
      return .s2 rd rs v
    else do
      let rd ← regOperand d
      let ra ← regOperand x
      let rb ← regOperand y
      return .s3 rd ra rb
  | _ => .error .shapeNotAdmitted

/-- The operands of a compare or test instruction: shape S1 or S4 (R68, R87). -/
def parseTestOps (t : Text) : Except DecodeError TestOps :=
  match operandTexts t with
  | [d, x] =>
    if looksImmediate x then do
      let ra ← regOperand d
      let v ← immOperand x
      return .s1 ra v
    else do
      let ra ← regOperand d
      let rb ← regOperand x
      return .s4 ra rb
  | _ => .error .shapeNotAdmitted

/-- The operands of a load: a destination register, a comma, and the address operand's text (R110). -/
def parseLoadOps (t : Text) : Except DecodeError (Reg × AddrOperand) :=
  match splitFirst (ascii ',') t with
  | (_, none) => .error .shapeNotAdmitted
  | (d, some a) => do
    let rd ← regOperand (trim d)
    if (trim a).isEmpty then .error .badAddressOperand else return (rd, trim a)

/-- A mnemonic that takes no operand. -/
def noOperands (i : Instr) (t : Text) : Except DecodeError Instr :=
  if t.isEmpty then .ok i else .error .shapeNotAdmitted

/-- The instruction of a mnemonic without a suffix and the text of its operands. Update source and shift have no spelling,
so an instruction read from text is plain (R81, R102). -/
def decodeOperands : Mnemonic → Text → Except DecodeError Instr
  | .addi, t => do return .addi (← parseWriteOps t) .plain
  | .subi, t => do return .subi (← parseWriteOps t) .plain
  | .adci, t => do return .adci (← parseWriteOps t) .plain
  | .sbci, t => do return .sbci (← parseWriteOps t) .plain
  | .addr, t => do return .addr (← parseWriteOps t) .plain
  | .andi, t => do return .andi (← parseWriteOps t) .plain
  | .orri, t => do return .orri (← parseWriteOps t) .plain
  | .xori, t => do return .xori (← parseWriteOps t) .plain
  | .cmpi, t => do return .cmpi (← parseTestOps t) .plain
  | .cmpr, t => do return .cmpr (← parseTestOps t) .plain
  | .tsai, t => do return .tsai (← parseTestOps t) .plain
  | .tsar, t => do return .tsar (← parseTestOps t) .plain
  | .tsxi, t => do return .tsxi (← parseTestOps t) .plain
  | .tsxr, t => do return .tsxr (← parseTestOps t) .plain
  | .load, t => do let o ← parseLoadOps t; return .load o.1 o.2
  | .ldea, t => do let o ← parseLoadOps t; return .ldea (.reg o.1) o.2
  | .bran, _ => .error .branWithoutCondition
  | .wait, t => noOperands .wait t
  | .halt, t => noOperands .halt t
  | .rete, t => noOperands .rete t

/-- `BRAN|<cc> label` (R70, R71, R120). -/
def decodeBranch (cc l : Text) : Except DecodeError Instr :=
  match parseCond cc with
  | none => .error .unknownCondition
  | some c => if labelWf l then .ok (.bran c l) else .error .badLabel

/-- One line of assembly text, to the instruction it stands for (R67 to R74). -/
def decode (line : Text) : Except DecodeError Instr :=
  let body := trim (cutComment line)
  if body.isEmpty then .error .noInstruction
  else
    let word := body.takeWhile (fun b => !isSpace b)
    let operands := trim (body.dropWhile (fun b => !isSpace b))
    match splitFirst (ascii '|') word with
    | (m, none) =>
      match parseMnemonic m with
      | some mn => decodeOperands mn operands
      | none => .error .unknownMnemonic
    | (m, some cc) =>
      match parseMnemonic m with
      | some .bran => decodeBranch cc operands
      | some _ => .error .suffixNotAdmitted
      | none => .error .unknownMnemonic

/-- What a line of a program stands for: an instruction of the table, or a coprocessor operation (R76). -/
inductive Operation
  | instr (i : Instr)
  | coprocessor (opcode : Word)
deriving DecidableEq, Repr

/-- What a line of a program stands for, or why it stands for nothing (R67 to R74, R76). Log 41. -/
def readLine : Line → Except DecodeError Operation
  | .text t =>
    match decode t with
    | .ok i => .ok (.instr i)
    | .error e => .error e
  | .term i => if WellFormed i then .ok (.instr i) else .error .illFormedTerm
  | .coprocessor c => .ok (.coprocessor c)

/-- The bytes of a number of `nbits` bits, the first byte the least significant, up to the last byte that is not zero:
a zero byte is no character, so the zero bits above an instruction's text are no part of its line. -/
def lineOfWord (nbits w : Nat) : Text :=
  ((List.range ((nbits + 7) / 8)).map (fun k => BitVec.ofNat 8 (w / 2 ^ (8 * k)))).takeWhile (· != 0#8)

/-- The instruction the decoder reads from the line whose bytes are the bits of `w`, byte by byte from bit 0 up. -/
def decodeTableWord (nbits w : Nat) : Option Instr :=
  match decode (lineOfWord nbits w) with
  | .ok i => some i
  | .error _ => none

/-! ### The encoder -/

/-- `#0x` and four hexadecimal digits (R69). -/
def encodeImm (v : Word) : Text :=
  chars ['#', '0', 'x'] ++
    [hexChar (v.toNat / 4096), hexChar (v.toNat / 256 % 16), hexChar (v.toNat / 16 % 16), hexChar (v.toNat % 16)]

/-- Operands separated by a comma and a space (R67). -/
def joinOperands : List Text → Text
  | [] => []
  | [t] => t
  | t :: ts => t ++ chars [',', ' '] ++ joinOperands ts

/-- The text of a writing instruction's operands (R68). -/
def encodeWriteOps : WriteOps → Text
  | .s1 rd v => joinOperands [rd.text, encodeImm v]
  | .s2 rd rs v => joinOperands [rd.text, rs.text, encodeImm v]
  | .s3 rd ra rb => joinOperands [rd.text, ra.text, rb.text]

/-- The text of a compare or test instruction's operands (R68). -/
def encodeTestOps : TestOps → Text
  | .s1 ra v => joinOperands [ra.text, encodeImm v]
  | .s4 ra rb => joinOperands [ra.text, rb.text]

/-- Mnemonic, one space, operands. -/
def instrLine (m : Mnemonic) (operands : Text) : Text := m.text ++ chars [' '] ++ operands

/-- An ALU instruction's line: only the plain control has a spelling (R81, R102). -/
def aluLine (m : Mnemonic) (operands : Text) (c : AluControl) : Option Text :=
  if c = .plain then some (instrLine m operands) else none

/-- The line that spells an instruction, or `none` where the source gives no spelling: an update source other than `alu` or
a shift (R81, R102), one of the three signed conditions of R133, an address register pair as `LDEA`'s destination (R111). -/
def encode : Instr → Option Text
  | .addi o c => aluLine .addi (encodeWriteOps o) c
  | .subi o c => aluLine .subi (encodeWriteOps o) c
  | .adci o c => aluLine .adci (encodeWriteOps o) c
  | .sbci o c => aluLine .sbci (encodeWriteOps o) c
  | .addr o c => aluLine .addr (encodeWriteOps o) c
  | .andi o c => aluLine .andi (encodeWriteOps o) c
  | .orri o c => aluLine .orri (encodeWriteOps o) c
  | .xori o c => aluLine .xori (encodeWriteOps o) c
  | .cmpi o c => aluLine .cmpi (encodeTestOps o) c
  | .cmpr o c => aluLine .cmpr (encodeTestOps o) c
  | .tsai o c => aluLine .tsai (encodeTestOps o) c
  | .tsar o c => aluLine .tsar (encodeTestOps o) c
  | .tsxi o c => aluLine .tsxi (encodeTestOps o) c
  | .tsxr o c => aluLine .tsxr (encodeTestOps o) c
  | .load rd a => some (instrLine .load (joinOperands [rd.text, a]))
  | .ldea (.reg r) a => some (instrLine .ldea (joinOperands [r.text, a]))
  | .ldea (.pair _) _ => none
  | .bran cc l => cc.text.map (fun t => Mnemonic.bran.text ++ chars ['|'] ++ t ++ chars [' '] ++ l)
  | .wait => some Mnemonic.wait.text
  | .halt => some Mnemonic.halt.text
  | .rete => some Mnemonic.rete.text

/-- Whether the source gives an instruction term a spelling (R71, R81, R102, R111, R133). -/
def Spelled : Instr → Bool
  | .addi _ c | .subi _ c | .adci _ c | .sbci _ c | .addr _ c => c = .plain
  | .andi _ c | .orri _ c | .xori _ c => c = .plain
  | .cmpi _ c | .cmpr _ c => c = .plain
  | .tsai _ c | .tsar _ c | .tsxi _ c | .tsxr _ c => c = .plain
  | .load _ _ => true
  | .ldea d _ => match d with | .reg _ => true | .pair _ => false
  | .bran cc _ => cc.text.isSome
  | .wait => true
  | .halt => true
  | .rete => true

end Sys2Proof
end

