-- ==== Sys2Proof/Machine/State.lean ====
section
/-! DEFINITION. The state of the machine, its reset value, and the reasons a step can stop. INVENTORY.md's "State" lists every
field with its rule and its reset value. -/

namespace Sys2Proof.Machine

/-- Memory: (address, byte) pairs, addresses strictly rising, no entry equal to what an unlisted address reads as. -/
abbrev Memory := List Host.Cell

/-- The saved context of a trap: the saved status register (R34) and the saved return point (R160). -/
structure Saved where
  sr  : Word
  ret : PC
deriving DecidableEq, Repr

/-- Everything the spec gives the machine, then the model's own fields (schedule, draw counter, parameters). -/
structure State where
  /-- The raw status register `SR` (R10, R12). -/
  sr : Word
  /-- General registers (R30) and members of the address register pairs (R31). -/
  regs : RegFile
  /-- The program counter (R33). -/
  pc : PC
  /-- The one save slot (R34, R160), empty or full. -/
  saved : Option Saved
  /-- Pending interrupt requests, oldest first (R35). -/
  pending : List Priority
  /-- A `Trace` exception is due at this boundary (R153, R157). Log 21. -/
  traceDue : Bool
  /-- Memory (R50 to R58). -/
  mem : Memory
  /-- Model's own: the position of the `WAIT` the CPU waits in, for the return point R160 leaves open. Log 11. -/
  waitAt : Option PC
  /-- The program text, one instruction a line (R67), outside the writable state (R60). -/
  text : List Line
  /-- The positions of the labels of the text (R33, R120). -/
  labels : List (Label × PC)
  /-- Model's own: what the environment will do, first event first (R3). Log 19. -/
  env : List EnvEvent
  /-- Model's own: how many draws were made (R17). Log 14. -/
  draws : Nat
  /-- Model's own: the implementation's parameters (00_scope.md section 5). -/
  params : Params
deriving DecidableEq, Repr

/-- The reasons the machine stops because the chip traps, is undefined or has no such step (R7). All safe: a run that
faults has no next state, so nothing is proved of what follows. -/
inductive Fault
  /-- `step`: the pc stands at no line of the text (R185: the source defines no program end). Safe. Log 4. -/
  | noInstructionAtPc
  /-- `HALT` where `HAS_HALT` is false (R141). Safe. -/
  | haltNotImplemented
  /-- `LOAD` of an address `MEM` does not admit: the access has no step (R54, U31). Safe. -/
  | accessNotAdmitted
  /-- `coprocessorOperation`: a privileged coprocessor operation in protected mode (R143). Safe. -/
  | privilegedCoprocessorOperation
deriving DecidableEq, Repr

/-- The reasons the spec has no meaning for the instruction or situation (R7). All safe: a refused run has no next state. -/
inductive Refusal
  /-- `exec`: an instruction that has no meaning yet. Safe. -/
  | notModelled (mnemonic : String)
  /-- `step`: the line at the pc is no instruction of the spec (R74, R70, R87, R134). Safe. -/
  | undecodable (e : DecodeError)
  /-- An ALU instruction with `u = shift` and no shift component (R102). Safe. -/
  | notInSpec
  /-- Trap entry while a saved context is outstanding (R34, R158 step 0, R162). Safe. -/
  | nestedTrap
  /-- `RETE` with nothing saved (R142). Safe. -/
  | reteWithoutSavedSr
  /-- `WAIT`, `HALT`, `RETE` in protected mode (R144). Safe. -/
  | systemInstructionInProtectedMode
  /-- A supervisor write of `sr` that turns W or H from 0 to 1 (R29). Safe. -/
  | srWriteSetsWOrH
  /-- A write of `sr`, or `RETE`, that sets T where `HAS_TRACE` is false (R153, U29). Safe. -/
  | traceNotImplemented
  /-- A read of `lh`, `ah`, `sh`, `ph` in protected mode (R32). Safe. -/
  | protectedReadOfHighAddressRegister
  /-- `coprocessorOperation`: an operation for which `COPROC` has no value (R143). Safe. Log 29. -/
  | coprocessorUnmodelled
  /-- A taken `BRAN` to a label the text does not define (R33, R120). Safe. Log 3. -/
  | undefinedLabel
deriving DecidableEq, Repr

/-- What a meaning answers. -/
abbrev Out := Host.Outcome State Fault Refusal

/-- Every register at 0: DESIGN CHOICE, log 6 (unsafe); the spec gives no reset value (R36). -/
def RegFile.reset : RegFile :=
  { r1 := 0, r2 := 0, r3 := 0, r4 := 0, r5 := 0, r6 := 0, r7 := 0,
    lh := 0, ll := 0, ah := 0, al := 0, sh := 0, sl := 0, ph := 0, pl := 0 }

/-- The same value for every kind of trap. -/
def PerTrap.all {α : Type} (a : α) : PerTrap α :=
  { privilegeViolation := a, addressOverflow := a, trace := a, low := a, medium := a, high := a, other := a, nmi := a }

/-- The parameters `State.reset` names, DESIGN CHOICE, logs 7 to 12 and 14 (unsafe): both optional features present, `ENTRY_MASK`
the identity, every handler at line 0, and so on. No statement rests on them. -/
def Params.reset : Params :=
  { hasHalt := true, hasTrace := true, level4 := true, reservedRead := .draw
    entryMask := PerTrap.all #v[0, 1, 2, 3, 4, 5, 6, 7]
    vector := PerTrap.all 0
    privilegeReturn := .same, overflowReturn := .same, waitReturn := .next
    resetSr := 0, resetEntry := 0
    mem := { byteOrder := .big, loadWidth := .word, alignment := 1, holes := [] } }

/-- The machine right after reset (R36, R180 to R182): H = 0 and nothing saved, as the spec says; `sr` otherwise, the registers, the
pc and the parameters at the values the log names; memory with nothing listed; no program (log 4). -/
def State.reset : State :=
  { sr := 0, regs := RegFile.reset, pc := 0, saved := none, pending := [], traceDue := false, waitAt := none
    mem := [], text := [], labels := [], env := [], draws := 0, params := Params.reset }

end Sys2Proof.Machine
end

