-- ==== Sys2Proof/Machine/Flags.lean ====
section
/-! DEFINITION. The bits of `sr` (R12), the interrupt mask (R19, R20), the masked read and write of `sr` (R25, R26), and every flag
computation of the spec (R82 to R85, R102). -/

namespace Sys2Proof.Machine

/-! ### Single bits -/

/-- The word with one bit replaced. -/
def setBit (w : Word) (i : Nat) (b : Bool) : Word :=
  if b then w ||| BitVec.twoPow 16 i else w &&& ~~~BitVec.twoPow 16 i

/-- Z, bit 0 (R13). -/
def srZ (sr : Word) : Bool := sr.getLsbD 0
/-- N, bit 1 (R14). -/
def srN (sr : Word) : Bool := sr.getLsbD 1
/-- C, bit 2 (R15). -/
def srC (sr : Word) : Bool := sr.getLsbD 2
/-- V, bit 3 (R16). -/
def srV (sr : Word) : Bool := sr.getLsbD 3
/-- P, bit 8: protected mode (R18). -/
def srP (sr : Word) : Bool := sr.getLsbD 8
/-- I3, bit 11, the most significant bit of the interrupt mask (R19). -/
def srI3 (sr : Word) : Bool := sr.getLsbD 11
/-- W, bit 12: waiting for interrupt (R21). -/
def srW (sr : Word) : Bool := sr.getLsbD 12
/-- H, bit 13: CPU halted (R22). -/
def srH (sr : Word) : Bool := sr.getLsbD 13
/-- A, bit 14: trap on address overflow (R23). -/
def srA (sr : Word) : Bool := sr.getLsbD 14
/-- T, bit 15: trace mode (R24). -/
def srT (sr : Word) : Bool := sr.getLsbD 15

/-- The interrupt mask `SR.IM`, bits 11:9 as the number `I3 ++ I2 ++ I1` (R19). -/
def srMask (sr : Word) : BitVec 3 := sr.extractLsb' 9 3

/-- Bits 11:9 replaced (R158 step 5). -/
def setMask (sr : Word) (m : BitVec 3) : Word :=
  setBit (setBit (setBit sr 9 (m.getLsbD 0)) 10 (m.getLsbD 1)) 11 (m.getLsbD 2)

/-- The four condition flags of a status word. -/
def flagsOf (sr : Word) : Flags := { z := srZ sr, n := srN sr, c := srC sr, v := srV sr }

/-- Bits 3 to 0 of `sr` replaced, nothing else touched (R80: the automatic flag update). -/
def withFlags (sr : Word) (f : Flags) : Word :=
  setBit (setBit (setBit (setBit sr 0 f.z) 1 f.n) 2 f.c) 3 f.v

/-- The flags as the four-bit value `SR[3:0]`. -/
def Flags.nibble (f : Flags) : BitVec 4 :=
  BitVec.ofBool f.v ++ BitVec.ofBool f.c ++ BitVec.ofBool f.n ++ BitVec.ofBool f.z

/-- The flags a four-bit value writes. -/
def Flags.ofNibble (b : BitVec 4) : Flags :=
  { z := b.getLsbD 0, n := b.getLsbD 1, c := b.getLsbD 2, v := b.getLsbD 3 }

/-! ### Interrupt mask -/

/-- `masked(p)` (R20). -/
def masked (sr : Word) : Priority → Bool
  | .low => 1 ≤ (srMask sr).toNat
  | .medium => 2 ≤ (srMask sr).toNat
  | .high => 3 ≤ (srMask sr).toNat
  | .other => srI3 sr
  | .nmi => false

/-! ### `sr` as an operand -/

/-- Bits 7:4 of an operand read of `sr` (R17, `RESERVED_READ`). `k` is the number of the draw. -/
def reservedBits (p : Params) (k : Nat) (sr : Word) : BitVec 4 :=
  match p.reservedRead with
  | .draw => Config.reservedDraw k (sr.extractLsb' 4 4)
  | .stored => sr.extractLsb' 4 4
  | .zero => 0

/-- The operand read of `sr` (R25): in protected mode bits 15 to 8 are masked to zero. -/
def readSr (p : Params) (k : Nat) (sr : Word) : Word :=
  (if srP sr then 0#8 else sr.extractLsb' 8 8) ++ (reservedBits p k sr ++ sr.extractLsb' 0 4)

/-- The value `sr` holds after an operand write of `v` (R26): all of it in supervisor mode, bits 7 to 0 in protected mode. -/
def maskedWrite (sr v : Word) : Word :=
  if srP sr then sr.extractLsb' 8 8 ++ v.extractLsb' 0 8 else v

/-- Whether a bit goes from 0 to 1. -/
def turnsOn (bit : Word → Bool) (old new : Word) : Bool := !(bit old) && bit new

/-- The refusals of an operand write that would change `sr` from `old` to `new`: W or H turned on (R29), T turned on without
`HAS_TRACE` (R153). -/
def srWriteRefusal (p : Params) (old new : Word) : Option Refusal :=
  if turnsOn srW old new || turnsOn srH old new then some .srWriteSetsWOrH
  else if turnsOn srT old new && !p.hasTrace then some .traceNotImplemented
  else none

/-- The operand write of `sr` (R26), unless R29 or R153 refuses it. -/
def writeSr (p : Params) (sr v : Word) : Except Refusal Word :=
  match srWriteRefusal p sr (maskedWrite sr v) with
  | some e => .error e
  | none => .ok (maskedWrite sr v)

/-! ### Flag computations -/

/-- What an ALU operation gives: its 16-bit result and the flags of its class. -/
structure AluResult where
  value : Word
  flags : Flags
deriving DecidableEq, Repr

/-- Addition (R82). -/
def aluAdd (a b : Word) (cin : Bool) : AluResult :=
  let sum : Nat := a.toNat + b.toNat + cin.toNat
  let exact : Int := a.toInt + b.toInt + cin.toNat
  let r : Word := BitVec.ofNat 16 sum
  { value := r
    flags := { z := r == 0, n := r.getLsbD 15, c := decide (65536 ≤ sum), v := decide (exact < -32768 ∨ 32767 < exact) } }

/-- Subtraction (R83); C is the borrow. -/
def aluSub (a b : Word) (bin : Bool) : AluResult :=
  let diff : Int := (a.toNat : Int) - b.toNat - bin.toNat
  let exact : Int := a.toInt - b.toInt - bin.toNat
  let r : Word := BitVec.ofInt 16 diff
  { value := r
    flags := { z := r == 0, n := r.getLsbD 15, c := decide (diff < 0), v := decide (exact < -32768 ∨ 32767 < exact) } }

/-- The logical class (R84): Z and N of the result, C and V cleared. -/
def aluLogical (r : Word) : AluResult :=
  { value := r, flags := { z := r == 0, n := r.getLsbD 15, c := false, v := false } }

/-- The test class (R85): Z and N of the result, C and V kept. -/
def aluTest (r : Word) (old : Flags) : AluResult :=
  { value := r, flags := { z := r == 0, n := r.getLsbD 15, c := old.c, v := old.v } }

/-- The operands after the shift component, if there is one (R102, `SHIFT_OPS`). -/
def shifted (sh : Option ShiftSpec) (a b : Word) : Word × Word :=
  match sh with
  | none => (a, b)
  | some s => Config.shiftOps s a b

/-- The status word after an ALU instruction's automatic update (R81, R102): by the class, by the shift, or none. -/
def autoUpdate (c : AluControl) (a b : Word) (classFlags : Flags) (sr : Word) : Word :=
  match c.update, c.shift with
  | .alu, _ => withFlags sr classFlags
  | .shift, some s => withFlags sr (Flags.ofNibble (Config.shiftFlags s a b (flagsOf sr).nibble))
  | .shift, none => sr
  | .none, _ => sr

/-! ### Condition codes -/

/-- The predicate of a condition code on the flags (R121 to R133). -/
def Flags.holds (f : Flags) : Cond → Bool
  | .eq => f.z
  | .ne => !f.z
  | .negSet => f.n
  | .negClear => !f.n
  | .carrySet => f.c
  | .carryClear => !f.c
  | .overflowSet => f.v
  | .overflowClear => !f.v
  | .unsignedHigher => !f.c && !f.z
  | .unsignedLowerOrSame => f.c || f.z
  | .signedGreaterOrEqual => f.n == f.v
  | .signedLess => f.n != f.v
  | .signedGreater => !f.z && (f.n == f.v)
  | .signedLessOrEqual => f.z || (f.n != f.v)

end Sys2Proof.Machine
end

