-- ==== Sys2Proof/Machine/Ops.lean ====
section
/-! DEFINITION. The named operations over memory and registers, taking a trap (R158), returning from one (R142), interrupt
requests (R35, R156, R157) and reset (R180 to R182). -/

namespace Sys2Proof.Machine

/-! ### Memory (R50 to R58) -/

/-- What an address that is not listed reads as. The spec gives no launch contents: DESIGN CHOICE, log 13 (unsafe). -/
def Memory.unlisted : Byte := 0#8

/-- The byte at an address. -/
def Memory.read : Memory → Nat → Byte
  | [], _ => Memory.unlisted
  | (k, v) :: m, a => if k = a then v else Memory.read m a

/-- The memory after one byte is written; writing what an unlisted address reads as removes the entry. -/
def Memory.write : Memory → Nat → Byte → Memory
  | [], a, b => if b = Memory.unlisted then [] else [(a, b)]
  | (k, v) :: m, a, b =>
    if a < k then (if b = Memory.unlisted then (k, v) :: m else (a, b) :: (k, v) :: m)
    else if a = k then (if b = Memory.unlisted then m else (a, b) :: m)
    else (k, v) :: Memory.write m a b

/-- The canonical form from an address on. -/
def Memory.wfFrom : Nat → Memory → Bool
  | _, [] => true
  | lo, (k, v) :: m => decide (lo ≤ k) && v != Memory.unlisted && Memory.wfFrom (k + 1) m

/-- The canonical form: addresses strictly rising, no entry equal to what an unlisted address reads as. -/
def Memory.wf (m : Memory) : Bool := Memory.wfFrom 0 m

/-- How many bytes a load moves (R55). -/
def loadBytes : LoadWidth → Nat
  | .word => 2
  | .byteZero => 1
  | .byteSign => 1

/-- Whether `MEM` admits an access of `n` bytes at an address (R54, R56): aligned, and clear of every hole. -/
def admitted (p : MemParams) (a n : Nat) : Bool :=
  (decide (p.alignment ≤ 1) || a % p.alignment == 0) &&
    p.holes.all (fun h => decide (a + n ≤ h.1) || decide (h.1 + h.2 ≤ a))

/-- `MemRead` (00_scope.md section 6): byte order decided here and nowhere else (R53). -/
def memRead (p : MemParams) (m : Memory) (a : Nat) : Word :=
  match p.loadWidth with
  | .byteZero => (m.read a).setWidth 16
  | .byteSign => (m.read a).signExtend 16
  | .word =>
    match p.byteOrder with
    | .big => m.read a ++ m.read (a + 1)
    | .little => m.read (a + 1) ++ m.read a

/-- `MemWrite` (00_scope.md section 6): "no instruction named in the source writes memory, the primitive is listed for
completeness only". -/
def memWrite (p : MemParams) (m : Memory) (a : Nat) (v : Word) : Memory :=
  match p.loadWidth with
  | .byteZero => m.write a (v.extractLsb' 0 8)
  | .byteSign => m.write a (v.extractLsb' 0 8)
  | .word =>
    match p.byteOrder with
    | .big => (m.write a (v.extractLsb' 8 8)).write (a + 1) (v.extractLsb' 0 8)
    | .little => (m.write a (v.extractLsb' 0 8)).write (a + 1) (v.extractLsb' 8 8)

/-! ### The register file (R30, R31) -/

/-- One register of the file. -/
def RegFile.get (f : RegFile) : FileReg → Word
  | .r1 => f.r1 | .r2 => f.r2 | .r3 => f.r3 | .r4 => f.r4 | .r5 => f.r5 | .r6 => f.r6 | .r7 => f.r7
  | .lh => f.lh | .ll => f.ll | .ah => f.ah | .al => f.al | .sh => f.sh | .sl => f.sl | .ph => f.ph | .pl => f.pl

/-- The file with one register replaced. -/
def RegFile.set (f : RegFile) (g : FileReg) (v : Word) : RegFile :=
  match g with
  | .r1 => { f with r1 := v } | .r2 => { f with r2 := v } | .r3 => { f with r3 := v } | .r4 => { f with r4 := v }
  | .r5 => { f with r5 := v } | .r6 => { f with r6 := v } | .r7 => { f with r7 := v }
  | .lh => { f with lh := v } | .ll => { f with ll := v } | .ah => { f with ah := v } | .al => { f with al := v }
  | .sh => { f with sh := v } | .sl => { f with sl := v } | .ph => { f with ph := v } | .pl => { f with pl := v }

/-- The high members of the address register pairs, `lh ah sh ph`: privileged registers (R18, R32). -/
def isHighFile : FileReg → Bool
  | .lh => true | .ah => true | .sh => true | .ph => true
  | .r1 => false | .r2 => false | .r3 => false | .r4 => false | .r5 => false | .r6 => false | .r7 => false
  | .ll => false | .al => false | .sl => false | .pl => false

/-- The file with the high members of another: what code that may not change them leaves (R18, R57). -/
def RegFile.keepHigh (old new : RegFile) : RegFile := { new with lh := old.lh, ah := old.ah, sh := old.sh, ph := old.ph }

/-- The high member of a pair (R31, R50). -/
def pairHigh : AddrPair → FileReg
  | .link => .lh | .address => .ah | .stack => .sh | .program => .ph

/-- The low member of a pair (R31; general knowledge K3, log 5). -/
def pairLow : AddrPair → FileReg
  | .link => .ll | .address => .al | .stack => .sl | .program => .pl

/-- Whether a register operand is a privileged register (R32); `sr` is not: a protected write of its upper byte is ignored. -/
def isHighReg : Reg → Bool
  | .sr => false
  | .file g => isHighFile g

/-! ### Traps -/

/-- The value a kind of trap has in a table. -/
def PerTrap.get {α : Type} (t : PerTrap α) : TrapKind → α
  | .privilegeViolation => t.privilegeViolation
  | .addressOverflow => t.addressOverflow
  | .trace => t.trace
  | .interrupt .low => t.low
  | .interrupt .medium => t.medium
  | .interrupt .high => t.high
  | .interrupt .other => t.other
  | .interrupt .nmi => t.nmi

/-- `ENTRY_MASK` (R159). -/
def entryMask (p : Params) (k : TrapKind) (old : BitVec 3) : BitVec 3 :=
  (p.entryMask.get k)[old.toNat]'old.isLt

/-- `VECTOR` (R160). -/
def vectorOf (p : Params) (k : TrapKind) : PC := p.vector.get k

/-- `SR` with W cleared: what is saved (R158 steps 1 and 2). -/
def savedSr (sr : Word) : Word := setBit sr 12 false

/-- `SR` in the handler: W, P and T cleared, the mask by `ENTRY_MASK`; every other bit kept (R158 steps 1, 3, 4, 5). -/
def handlerSr (p : Params) (k : TrapKind) (sr : Word) : Word :=
  setMask (setBit (setBit (savedSr sr) 8 false) 15 false) (entryMask p k (srMask sr))

/-- `TrapEntry(kind)` (R158), with the return point that is saved (R160). Nothing else changes (R161). -/
def trapEntry (k : TrapKind) (ret : PC) (s : State) : Out :=
  match s.saved with
  | some _ => .refused .nestedTrap
  | none =>
    .next { s with
      sr := handlerSr s.params k s.sr
      saved := some { sr := savedSr s.sr, ret := ret }
      pc := vectorOf s.params k
      waitAt := none }

/-- The return point of a synchronous exception raised by the instruction at the pc (R160, U39). -/
def returnAt (r : ReturnPoint) (pc : PC) : PC :=
  match r with
  | .same => pc
  | .next => pc + 1

/-- `raise PrivilegeViolation` (R151). -/
def raisePrivilegeViolation (s : State) : Out :=
  trapEntry .privilegeViolation (returnAt s.params.privilegeReturn s.pc) s

/-- `raise AddressOverflow` (R152). -/
def raiseAddressOverflow (s : State) : Out :=
  trapEntry .addressOverflow (returnAt s.params.overflowReturn s.pc) s

/-- The `Trace` exception after a completed instruction (R153); its return point is the next instruction (R160). -/
def takeTrace (s : State) : Out := trapEntry .trace s.pc { s with traceDue := false }

/-- An instruction that was started in `s0` completes: control passes to `pc`, and a `Trace` is due at the coming boundary
exactly if the instruction was started with T = 1 (R80 step 8, R153). -/
def complete (s0 : State) (pc : PC) (s : State) : Out :=
  .next { s with pc := pc, traceDue := s0.params.hasTrace && srT s0.sr }

/-- The return from a trap (R142, R162): all sixteen bits of `SR` and the return point from the saved context, which becomes empty. -/
def returnFromTrap (s : State) : Out :=
  match s.saved with
  | none => .refused .reteWithoutSavedSr
  | some c =>
    if turnsOn srT s.sr c.sr && !s.params.hasTrace then .refused .traceNotImplemented
    else complete s c.ret { s with sr := c.sr, saved := none }

/-! ### Interrupt requests -/

/-- Whether requests of a priority exist on this implementation (R154, `LEVEL4`). -/
def priorityExists (p : Params) (q : Priority) : Bool := q != .other || p.level4

/-- A request becomes pending (R35). -/
def raiseRequest (q : Priority) (s : State) : State :=
  if priorityExists s.params q then { s with pending := s.pending ++ [q] } else s

/-- One pending request of this priority is withdrawn (R35). -/
def withdrawRequest (q : Priority) (s : State) : State := { s with pending := s.pending.erase q }

/-- The priorities from the highest down (R157). -/
def prioritiesDown : List Priority := [.nmi, .other, .high, .medium, .low]

/-- The request that may be taken: of the highest priority among the pending unmasked ones (R156, R157). -/
def chosenRequest (s : State) : Option Priority :=
  prioritiesDown.find? (fun q => s.pending.contains q && priorityExists s.params q && !masked s.sr q)

/-- The return point of an interrupt (R160): the next instruction to execute, or, if it ends a `WAIT`, where the parameter puts it:
at that `WAIT` or after it. A wait state that no `WAIT` entered (W set by `RESET_SR`) has no such instruction. Log 11. -/
def interruptReturn (s : State) : PC :=
  match s.params.waitReturn, s.waitAt with
  | .same, some w => w
  | .same, none => s.pc
  | .next, _ => s.pc

/-- A boundary at which a request is taken if one can be (R156); none is taken while the CPU is halted (R166). -/
def acceptInterrupt (s : State) : Out :=
  if srH s.sr then .next s
  else
    match chosenRequest s with
    | none => .next s
    | some q => trapEntry (.interrupt q) (interruptReturn s) s

/-! ### Reset -/

/-- `SR` after reset: `RESET_SR` with H cleared (R36, R180, R181). -/
def resetSr (p : Params) : Word := setBit p.resetSr 13 false

/-- The reset event (R180 to R182): a fresh launch at `RESET_ENTRY` with nothing saved; registers as at `State.reset`; memory, text,
pending requests and parameters stay. Log 23. -/
def resetCpu (s : State) : State :=
  { s with
    sr := resetSr s.params
    regs := RegFile.reset
    pc := s.params.resetEntry
    saved := none
    traceDue := false
    waitAt := none }

end Sys2Proof.Machine
end

