-- ==== Sys2Proof/Machine/Operands.lean ====
section
/-! DEFINITION. Register operands (R25, R26, R32), the operand shapes (R68), and the template every ALU instruction follows (R80). -/

namespace Sys2Proof.Machine

/-! ### Register operands -/

/-- Whether an instruction started in `s` may read a register: not a high member in protected mode (R32). -/
def readable (s : State) (r : Reg) : Bool := !(isHighReg r && srP s.sr)

/-- The operand read `x[r]` (R25); `k` numbers the draw an operand read of `sr` makes. -/
def readReg (s : State) (k : Nat) : Reg → Word
  | .sr => readSr s.params k s.sr
  | .file g => s.regs.get g

/-- Whether the destination is a privileged register the mode may not write (R32, R151). -/
def writeViolates (s : State) (r : Reg) : Bool := isHighReg r && srP s.sr

/-- The operand write `x[r] <- v` (R26, R29), the privilege check of R32 apart. -/
def writeReg (r : Reg) (v : Word) (s : State) : Except Refusal State :=
  match r with
  | .file g => .ok { s with regs := s.regs.set g v }
  | .sr =>
    match writeSr s.params s.sr v with
    | .ok sr => .ok { s with sr := sr }
    | .error e => .error e

/-! ### Operand shapes -/

/-- A source operand: a register or an immediate. -/
inductive Source
  | reg (r : Reg)
  | imm (v : Word)
deriving DecidableEq, Repr

/-- Whether a source may be read in this mode (R32). -/
def sourceReadable (s : State) : Source → Bool
  | .reg r => readable s r
  | .imm _ => true

/-- The value of a source. -/
def readSource (s : State) (k : Nat) : Source → Word
  | .reg r => readReg s k r
  | .imm v => v

/-- The destination of a writing instruction (R68). -/
def writeDest : WriteOps → Reg
  | .s1 rd _ => rd
  | .s2 rd _ _ => rd
  | .s3 rd _ _ => rd

/-- The first operand of a writing instruction (R80 step 3); S1 reads its destination. -/
def writeSrcA : WriteOps → Source
  | .s1 rd _ => .reg rd
  | .s2 _ rs _ => .reg rs
  | .s3 _ ra _ => .reg ra

/-- The second operand of a writing instruction (R80 step 3). -/
def writeSrcB : WriteOps → Source
  | .s1 _ v => .imm v
  | .s2 _ _ v => .imm v
  | .s3 _ _ rb => .reg rb

/-- The first operand of a compare or test instruction. -/
def testSrcA : TestOps → Source
  | .s1 ra _ => .reg ra
  | .s4 ra _ => .reg ra

/-- The second operand of a compare or test instruction. -/
def testSrcB : TestOps → Source
  | .s1 _ v => .imm v
  | .s4 _ rb => .reg rb

/-! ### The ALU template (R80) -/

/-- An ALU operation: from the two operands and the old flags to the result and the flags of its class. -/
abbrev AluOp := Word → Word → Flags → AluResult

/-- The state with the draws of one ALU instruction counted: one number for each of its two operands. Log 14. -/
def countDraws (s : State) : State := { s with draws := s.draws + 2 }

/-- The operands of an ALU instruction, after its shift component (R80 step 3, R102). -/
def aluOperands (s : State) (c : AluControl) (a b : Source) : Word × Word :=
  shifted c.shift (readSource s s.draws a) (readSource s (s.draws + 1) b)

/-- The status word after the automatic update of an ALU instruction started in `s` (R80 steps 6 and 7). -/
def aluUpdate (s : State) (c : AluControl) (a b : Source) (classFlags : Flags) : Word :=
  autoUpdate c (readSource s s.draws a) (readSource s (s.draws + 1) b) classFlags s.sr

/-- What a writing instruction's operation gives (R80 steps 3 to 5). -/
def writeResult (op : AluOp) (o : WriteOps) (c : AluControl) (s : State) : AluResult :=
  op (aluOperands s c (writeSrcA o) (writeSrcB o)).1 (aluOperands s c (writeSrcA o) (writeSrcB o)).2 (flagsOf s.sr)

/-- What a compare or test instruction's operation gives (R80 steps 3 to 5). -/
def testResult (op : AluOp) (o : TestOps) (c : AluControl) (s : State) : AluResult :=
  op (aluOperands s c (testSrcA o) (testSrcB o)).1 (aluOperands s c (testSrcA o) (testSrcB o)).2 (flagsOf s.sr)

/-- Whether a writing instruction may read both its operands in this mode (R32, R80 step 3). -/
def writeReadable (s : State) (o : WriteOps) : Bool := sourceReadable s (writeSrcA o) && sourceReadable s (writeSrcB o)

/-- Whether a compare or test instruction may read both its operands in this mode (R32, R80 step 3). -/
def testReadable (s : State) (o : TestOps) : Bool := sourceReadable s (testSrcA o) && sourceReadable s (testSrcB o)

/-- The write of a writing instruction's result (R80 step 6): into `sr` by the masked write and with no automatic update (R86), into
any other register with the update the class and the update source give. -/
def commitWrite (res : AluResult) (o : WriteOps) (c : AluControl) (s : State) : Except Refusal State :=
  match writeDest o with
  | .sr => writeReg .sr res.value (countDraws s)
  | .file g =>
    .ok { countDraws s with
      regs := s.regs.set g res.value
      sr := aluUpdate s c (writeSrcA o) (writeSrcB o) res.flags }

/-- A writing ALU instruction (R80): the destination's privilege first, then the operands, the operation and the write. -/
def execWrite (op : AluOp) (o : WriteOps) (c : AluControl) (s : State) : Out :=
  if !c.wf then .refused .notInSpec
  else if writeViolates s (writeDest o) then raisePrivilegeViolation s
  else if !writeReadable s o then .refused .protectedReadOfHighAddressRegister
  else
    match commitWrite (writeResult op o c s) o c s with
    | .ok t => complete s (s.pc + 1) t
    | .error e => .refused e

/-- A compare or test instruction (R80): nothing is written but the flags. -/
def execFlagsOnly (op : AluOp) (o : TestOps) (c : AluControl) (s : State) : Out :=
  if !c.wf then .refused .notInSpec
  else if !testReadable s o then .refused .protectedReadOfHighAddressRegister
  else
    complete s (s.pc + 1)
      { countDraws s with sr := aluUpdate s c (testSrcA o) (testSrcB o) (testResult op o c s).flags }

end Sys2Proof.Machine
end

