-- ==== Sys2Proof/Machine/System.lean ====
section
/-! DEFINITION. The system instructions (R140 to R142, R144) and the coprocessor operations (R143). -/

namespace Sys2Proof.Machine

/-- `WAIT` (R140): W is set; the CPU executes nothing until a trap is taken (R165). The position of the `WAIT` is kept for the
return point R160 leaves open (log 11). -/
def execWait (s : State) : Out :=
  if srP s.sr then .refused .systemInstructionInProtectedMode
  else complete s (s.pc + 1) { s with sr := setBit s.sr 12 true, waitAt := some s.pc }

/-- `HALT` (R141): H is set, where the feature is implemented; no `Trace` follows, the CPU having halted.
No rule says where the pc stands then: it moves to the next line, DESIGN CHOICE, log 44 (unsafe). -/
def execHalt (s : State) : Out :=
  if !s.params.hasHalt then .fault .haltNotImplemented
  else if srP s.sr then .refused .systemInstructionInProtectedMode
  else .next { s with sr := setBit s.sr 13 true, pc := s.pc + 1, traceDue := false }

/-- `RETE` (R142): the return from a trap, in supervisor mode. -/
def execRete (s : State) : Out :=
  if srP s.sr then .refused .systemInstructionInProtectedMode
  else returnFromTrap s

/-- A coprocessor operation with a 16-bit opcode (R143, R76): in protected mode a privileged one, above `0x07xx`, faults; any other has the
effect `COPROC` gives it, and is refused where the parameter has no value. The effect is on the register file: `sr` has no such
writer (R28, R37), and in protected mode the high members of the pairs stay (R18, R57). Log 29. In protected mode it may draw on those
members and is not refused, where R32 leaves their reading open: DESIGN CHOICE, log 45. -/
def coprocessorOperation (opcode : Word) (s : State) : Out :=
  if 0x0800 ≤ opcode.toNat ∧ srP s.sr then .fault .privilegedCoprocessorOperation
  else
    match Config.coproc s.draws opcode s.regs with
    | none => .refused .coprocessorUnmodelled
    | some f => complete s (s.pc + 1) { countDraws s with regs := if srP s.sr then s.regs.keepHigh f else f }

end Sys2Proof.Machine
end

