-- ==== Sys2Proof/Machine/Boundary.lean ====
section
/-! DEFINITION. What happens at a boundary between instructions (R156, R157, R165, R166): the environment's event, then a due
`Trace`, the halted and the wait state, or the fetch of the next line. `step` runs what this decides. -/

namespace Sys2Proof.Machine

/-- The line at the pc. -/
def fetch (s : State) : Option Line := s.text[s.pc]?

/-- What a boundary comes to: the step is settled, or it runs an instruction in a state. -/
inductive Boundary
  | settled (o : Out)
  | run (i : Instr) (s : State)

/-- The CPU's turn when it is to execute: the line at the pc is read; a blank or comment line is passed over (R67), a line that
is no instruction of the spec is refused (R74), a coprocessor operation is performed (R76, R143). -/
def fetchTurn (s : State) : Boundary :=
  match fetch s with
  | none => .settled (.fault .noInstructionAtPc)
  | some line =>
    match readLine line with
    | .ok (.instr i) => .run i s
    | .ok (.coprocessor c) => .settled (coprocessorOperation c s)
    | .error .noInstruction => .settled (.next { s with pc := s.pc + 1 })
    | .error e => .settled (.refused (.undecodable e))

/-- The CPU's turn: halted, it does nothing (R166); a due `Trace` is taken before the next instruction (R153); waiting, it does nothing
(R165); else it executes. -/
def cpuTurn (s : State) : Boundary :=
  if srH s.sr then .settled (.next s)
  else if s.traceDue then .settled (takeTrace s)
  else if srW s.sr then .settled (.next s)
  else fetchTurn s

/-- One boundary: the environment's next event (R3), or the CPU's turn when it has none or lets the CPU go on. -/
def boundary (s : State) : Boundary :=
  match s.env with
  | [] => cpuTurn s
  | .proceed :: es => cpuTurn { s with env := es }
  | .raise q :: es => .settled (.next (raiseRequest q { s with env := es }))
  | .withdraw q :: es => .settled (.next (withdrawRequest q { s with env := es }))
  | .accept :: es => .settled (acceptInterrupt { s with env := es })
  | .reset :: es => .settled (.next (resetCpu { s with env := es }))

/-- The text with one line replaced, blank lines filling up to it. -/
def setLine : List Line → Nat → Line → List Line
  | [], 0, l => [l]
  | [], n + 1, l => .text [] :: setLine [] n l
  | _ :: ts, 0, l => l :: ts
  | t :: ts, n + 1, l => t :: setLine ts n l

/-- The state with a line placed where the next step fetches, and nothing standing between that step and the fetch: no event of
the environment, no `Trace` due, the CPU neither waiting nor halted. -/
def placeLine (s : State) (l : Line) : State :=
  { s with
    text := setLine s.text s.pc l
    sr := setBit (setBit s.sr 12 false) 13 false
    traceDue := false
    waitAt := none
    env := [] }

end Sys2Proof.Machine
end

