-- ==== Sys2Proof/Machine/Arithmetic.lean ====
section
/-! DEFINITION. The arithmetic instructions (R88 to R92). What SUBI, ADCI and SBCI compute is decision D7, log 25. -/

namespace Sys2Proof.Machine

/-- `ADDI` (R88): `a + b`. -/
def execAddi (o : WriteOps) (c : AluControl) (s : State) : Out :=
  execWrite (fun a b _ => aluAdd a b false) o c s

/-- `SUBI` (R89): `a - b`. -/
def execSubi (o : WriteOps) (c : AluControl) (s : State) : Out :=
  execWrite (fun a b _ => aluSub a b false) o c s

/-- `ADCI` (R90): `a + b + C`. -/
def execAdci (o : WriteOps) (c : AluControl) (s : State) : Out :=
  execWrite (fun a b f => aluAdd a b f.c) o c s

/-- `SBCI` (R91): `a - b - C`. -/
def execSbci (o : WriteOps) (c : AluControl) (s : State) : Out :=
  execWrite (fun a b f => aluSub a b f.c) o c s

/-- `ADDR` (R92): `a + b`, in the arithmetic class (decision D6). -/
def execAddr (o : WriteOps) (c : AluControl) (s : State) : Out :=
  execWrite (fun a b _ => aluAdd a b false) o c s

end Sys2Proof.Machine
end

