-- ==== Sys2Proof/Machine/BitTest.lean ====
section
/-! DEFINITION. The test instructions (R98 to R101). What TSXI and TSXR compute is decision D7, log 25. -/

namespace Sys2Proof.Machine

/-- `TSAI` (R98): Z and N of `a AND b`. -/
def execTsai (o : TestOps) (c : AluControl) (s : State) : Out :=
  execFlagsOnly (fun a b f => aluTest (a &&& b) f) o c s

/-- `TSAR` (R99): as `TSAI`. -/
def execTsar (o : TestOps) (c : AluControl) (s : State) : Out :=
  execFlagsOnly (fun a b f => aluTest (a &&& b) f) o c s

/-- `TSXI` (R100): Z and N of `a XOR b`. -/
def execTsxi (o : TestOps) (c : AluControl) (s : State) : Out :=
  execFlagsOnly (fun a b f => aluTest (a ^^^ b) f) o c s

/-- `TSXR` (R101): as `TSXI`. -/
def execTsxr (o : TestOps) (c : AluControl) (s : State) : Out :=
  execFlagsOnly (fun a b f => aluTest (a ^^^ b) f) o c s

end Sys2Proof.Machine
end

