-- ==== Sys2Proof/Machine/Branch.lean ====
section
/-! DEFINITION. The conditional branch (R120 to R134). -/

namespace Sys2Proof.Machine

/-- The position a label names (R33): the first entry of that label. -/
def labelTarget (labels : List (Label × PC)) (l : Label) : Option PC :=
  (labels.find? (fun e => e.1 == l)).map (fun e => e.2)

/-- `BRAN|<cc> label` (R120): to the label's line if the condition holds on the flags as they stand (R121), else to the next line.
`SR` is not changed; both modes alike (D38). -/
def execBran (cc : Cond) (l : Label) (s : State) : Out :=
  if (flagsOf s.sr).holds cc then
    match labelTarget s.labels l with
    | some target => complete s target s
    | none => .refused .undefinedLabel
  else complete s (s.pc + 1) s

end Sys2Proof.Machine
end

