-- ==== Sys2Proof/Machine/Compare.lean ====
section
/-! DEFINITION. The compare instructions (R96, R97): the flags of `a - b`, first operand minus second (decision D8). -/

namespace Sys2Proof.Machine

/-- `CMPI` (R96). -/
def execCmpi (o : TestOps) (c : AluControl) (s : State) : Out :=
  execFlagsOnly (fun a b _ => aluSub a b false) o c s

/-- `CMPR` (R97). -/
def execCmpr (o : TestOps) (c : AluControl) (s : State) : Out :=
  execFlagsOnly (fun a b _ => aluSub a b false) o c s

end Sys2Proof.Machine
end

