-- ==== Sys2Proof/Machine/Load.lean ====
section
/-! DEFINITION. The load instructions (R110 to R112). Neither updates the condition flags. -/

namespace Sys2Proof.Machine

/-- The address calculation of an instruction started in `s` (R51, R110 step 2). -/
def addressCalc (k : CalcKind) (a : AddrOperand) (s : State) : AddressCalc :=
  { kind := k, operand := a, regs := s.regs }

/-- Whether the calculation raises `AddressOverflow` (R51, R152): it overflows and A is set. -/
def overflowTraps (s : State) (k : AddressCalc) : Bool := srA s.sr && Config.addrOverflow k

/-- The address the operand's pair holds (R50): its high member is the segment part, its low member the offset part. -/
def baseAddress (k : AddressCalc) : Address :=
  { segment := k.regs.get (pairHigh (Config.addrPair k.operand))
    offset := (k.regs.get (pairLow (Config.addrPair k.operand))).toNat }

/-- The address of a calculation that raises nothing, wrapped silently if it overflowed (R51, R110 step 4). Its segment part is the
pair's high member either way (R50). -/
def effectiveAddress (k : AddressCalc) : Address :=
  { baseAddress k with
    offset := if Config.addrOverflow k then Config.wrapOffset k else (baseAddress k).offset + Config.displacement k }

/-- The registers `LDEA` writes, in order (R111): one, or both members of an address register pair (R31). Log 17. -/
def leaRegs : LeaDest → List Reg
  | .reg r => [r]
  | .pair p => [.file (pairHigh p), .file (pairLow p)]

/-- Each register of a list written with its part of an address. -/
def writeParts (a : Address) : List Reg → State → Except Refusal State
  | [], s => .ok s
  | r :: rs, s =>
    match writeReg r (Config.addressPart a r) s with
    | .ok t => writeParts a rs t
    | .error e => .error e

/-- What `LOAD` reads (R110 step 5). -/
def loadedValue (a : AddrOperand) (s : State) : Word :=
  memRead s.params.mem s.mem (Config.place (effectiveAddress (addressCalc .load a s)))

/-- Whether `MEM` admits what `LOAD` reads (R54). -/
def loadAdmitted (a : AddrOperand) (s : State) : Bool :=
  admitted s.params.mem (Config.place (effectiveAddress (addressCalc .load a s))) (loadBytes s.params.mem.loadWidth)

/-- `LOAD` (R110, R112): privilege of the destination, address calculation, overflow under A, the read, the write; the condition
flags are not updated. -/
def execLoad (rd : Reg) (a : AddrOperand) (s : State) : Out :=
  if writeViolates s rd then raisePrivilegeViolation s
  else if overflowTraps s (addressCalc .load a s) then raiseAddressOverflow s
  else if !loadAdmitted a s then .fault .accessNotAdmitted
  else
    match writeReg rd (loadedValue a s) s with
    | .ok t => complete s (s.pc + 1) t
    | .error e => .refused e

/-- `LDEA` (R111): a computed address into its destination, without a memory access; the condition flags are not updated. A
destination that includes `lh`, `ah`, `sh` or `ph` is a privileged write. The value written is free, log 17. In protected mode the
calculation may draw on those registers and is not refused: DESIGN CHOICE, log 43. -/
def execLdea (d : LeaDest) (a : AddrOperand) (s : State) : Out :=
  if (leaRegs d).any (writeViolates s) then raisePrivilegeViolation s
  else if overflowTraps s (addressCalc .ldea a s) then raiseAddressOverflow s
  else
    match writeParts (effectiveAddress (addressCalc .ldea a s)) (leaRegs d) s with
    | .ok t => complete s (s.pc + 1) t
    | .error e => .refused e

end Sys2Proof.Machine
end

