-- ==== Sys2Proof/Machine/Logical.lean ====
section
/-! DEFINITION. The logical instructions (R93 to R95). What XORI computes is decision D7, log 25. -/

namespace Sys2Proof.Machine

/-- `ANDI` (R93). -/
def execAndi (o : WriteOps) (c : AluControl) (s : State) : Out :=
  execWrite (fun a b _ => aluLogical (a &&& b)) o c s

/-- `ORRI` (R94). -/
def execOrri (o : WriteOps) (c : AluControl) (s : State) : Out :=
  execWrite (fun a b _ => aluLogical (a ||| b)) o c s

/-- `XORI` (R95). -/
def execXori (o : WriteOps) (c : AluControl) (s : State) : Out :=
  execWrite (fun a b _ => aluLogical (a ^^^ b)) o c s

end Sys2Proof.Machine
end

