-- ==== Sys2Proof/Machine/Dispatch.lean ====
section
/-! DEFINITION. The dispatch: one arm per constructor of `Instr`, each one call of that instruction's meaning. -/

namespace Sys2Proof.Machine

def exec (i : Instr) (s : State) : Host.Outcome State Fault Refusal :=
  match i with
  | .addi o c => Sys2Proof.Machine.execAddi o c s
  | .subi o c => Sys2Proof.Machine.execSubi o c s
  | .adci o c => Sys2Proof.Machine.execAdci o c s
  | .sbci o c => Sys2Proof.Machine.execSbci o c s
  | .addr o c => Sys2Proof.Machine.execAddr o c s
  | .andi o c => Sys2Proof.Machine.execAndi o c s
  | .orri o c => Sys2Proof.Machine.execOrri o c s
  | .xori o c => Sys2Proof.Machine.execXori o c s
  | .cmpi o c => Sys2Proof.Machine.execCmpi o c s
  | .cmpr o c => Sys2Proof.Machine.execCmpr o c s
  | .tsai o c => Sys2Proof.Machine.execTsai o c s
  | .tsar o c => Sys2Proof.Machine.execTsar o c s
  | .tsxi o c => Sys2Proof.Machine.execTsxi o c s
  | .tsxr o c => Sys2Proof.Machine.execTsxr o c s
  | .load rd a => Sys2Proof.Machine.execLoad rd a s
  | .ldea d a => Sys2Proof.Machine.execLdea d a s
  | .bran cc l => Sys2Proof.Machine.execBran cc l s
  | .wait => Sys2Proof.Machine.execWait s
  | .halt => Sys2Proof.Machine.execHalt s
  | .rete => Sys2Proof.Machine.execRete s

end Sys2Proof.Machine
end

