-- ==== Sys2Proof/Machine/Step.lean ====
section
/-! DEFINITION. One step of the machine, and the placing of an instruction where the next step fetches it. -/

namespace Sys2Proof.Machine

/-- One step: what the boundary settles, or the instruction it runs. -/
def step (s : State) : Host.Outcome State Fault Refusal :=
  match boundary s with
  | .settled o => o
  | .run i t => exec i t

/-- `s` with the line whose bytes are the bits of `w` (`lineOfWord`) placed at the pc, so that the next step runs it. It stands for
the loading of a program from outside (log 4). -/
def State.withFetchWord (s : State) (nbits w : Nat) : State := placeLine s (.text (lineOfWord nbits w))

end Sys2Proof.Machine
end

