-- ==== Sys2Proof/Safety.lean ====
section
/-! DEFINITION. The terms statements are made in: the invariant of the machine, the frame of an instruction, what a trap leaves. -/

namespace Sys2Proof.Machine

/-- The saved context holds neither W nor H (R158 steps 1 and 2; no trap is taken while H = 1, R166). -/
def savedQuiet (s : State) : Bool :=
  match s.saved with
  | none => true
  | some c => !(srW c.sr) && !(srH c.sr)

/-- The invariant of the machine: memory is canonical; the saved context would neither halt nor suspend the CPU; the CPU is halted
only where `HALT` is implemented, and then no `Trace` is due; a `Trace` is due only where trace mode is implemented; the CPU is in a
`WAIT` only if W is set. -/
abbrev MachineInv (s : State) : Prop :=
  s.mem.wf = true ∧ savedQuiet s = true ∧
    (srH s.sr = true → s.params.hasHalt = true ∧ s.traceDue = false) ∧
    (s.traceDue = true → s.params.hasTrace = true) ∧ (s.waitAt.isSome = true → srW s.sr = true)

/-- Nothing is different outside the registers, `sr`, the pc, the due `Trace` and the draw counter: the saved context, the `WAIT`
waited in, the pending requests, every byte of memory, the text and its labels, the environment and the parameters. -/
def SameRest (s t : State) : Prop :=
  t.saved = s.saved ∧ t.waitAt = s.waitAt ∧ t.pending = s.pending ∧ (∀ a, t.mem.read a = s.mem.read a) ∧ t.text = s.text ∧
    t.labels = s.labels ∧ t.env = s.env ∧ t.params = s.params

/-- Every register of the file outside a list holds what it held. -/
def SameRegsExcept (ds : List FileReg) (s t : State) : Prop := ∀ g, g ∉ ds → t.regs.get g = s.regs.get g

/-- Every bit of `sr` outside a list is what it was. -/
def SameSrExcept (bits : List Nat) (s t : State) : Prop := ∀ j, j ∉ bits → t.sr.getLsbD j = s.sr.getLsbD j

/-- The instruction started in `s` has completed in `t` with control at `pc`, and a `Trace` is due exactly if it was started with T = 1
on an implementation with trace mode (R153). -/
def CompletedAt (pc : PC) (s t : State) : Prop := t.pc = pc ∧ t.traceDue = (s.params.hasTrace && srT s.sr)

/-- `t` is the state a trap of kind `k` with return point `ret` leaves when taken in `s` (R158, R160, R161). -/
def TrapTaken (k : TrapKind) (ret : PC) (s t : State) : Prop :=
  (∃ c, t.saved = some c ∧ c.ret = ret ∧ srW c.sr = false ∧ ∀ j, j ≠ 12 → c.sr.getLsbD j = s.sr.getLsbD j) ∧
    srW t.sr = false ∧ srP t.sr = false ∧ srT t.sr = false ∧ srMask t.sr = entryMask s.params k (srMask s.sr) ∧
    SameSrExcept [8, 9, 10, 11, 12, 15] s t ∧
    t.pc = vectorOf s.params k ∧ t.waitAt = none ∧ t.regs = s.regs ∧ t.pending = s.pending ∧ (∀ a, t.mem.read a = s.mem.read a) ∧
    t.text = s.text ∧ t.labels = s.labels ∧ t.params = s.params

/-- The two states differ at most in what protected-mode code cannot see of `sr`: bits 15 to 8 (R25), P apart. -/
def SameButUpperByte (s t : State) : Prop :=
  t.regs = s.regs ∧ t.pc = s.pc ∧ t.mem = s.mem ∧ t.text = s.text ∧ t.labels = s.labels ∧ t.draws = s.draws ∧
    t.params = s.params ∧ ∀ j, j < 8 → t.sr.getLsbD j = s.sr.getLsbD j

/-- Whether an instruction is one of the fourteen ALU instructions (R76). -/
def isAlu : Instr → Bool
  | .addi _ _ | .subi _ _ | .adci _ _ | .sbci _ _ | .addr _ _ => true
  | .andi _ _ | .orri _ _ | .xori _ _ => true
  | .cmpi _ _ | .cmpr _ _ => true
  | .tsai _ _ | .tsar _ _ | .tsxi _ _ | .tsxr _ _ => true
  | .load _ _ | .ldea _ _ | .bran _ _ => false
  | .wait | .halt | .rete => false

/-- The registers an instruction names as its destination (R68, R110, R111). -/
def destinations : Instr → List Reg
  | .addi o _ | .subi o _ | .adci o _ | .sbci o _ | .addr o _ => [writeDest o]
  | .andi o _ | .orri o _ | .xori o _ => [writeDest o]
  | .cmpi _ _ | .cmpr _ _ => []
  | .tsai _ _ | .tsar _ _ | .tsxi _ _ | .tsxr _ _ => []
  | .load rd _ => [rd]
  | .ldea d _ => leaRegs d
  | .bran _ _ => []
  | .wait | .halt | .rete => []

/-- The state a step answers, if it answers one. -/
def nextOf (o : Out) : Option State :=
  match o with
  | .next t => some t
  | .fault _ => none
  | .refused _ => none

/-- The fault an outcome is, if it is one. -/
def faultOf (o : Out) : Option Fault :=
  match o with
  | .next _ => none
  | .fault e => some e
  | .refused _ => none

/-- The refusal an outcome is, if it is one. -/
def refusalOf (o : Out) : Option Refusal :=
  match o with
  | .next _ => none
  | .fault _ => none
  | .refused e => some e

end Sys2Proof.Machine
end

