-- ==== Sys2Proof/Certificates/Slice0/Obligations.lean ====
section
/-! DEFINITION. The statements for the provers, and the words they are made in. No statement rests on a value of `State.reset` or of a
parameter: each holds for every state, so for every parameter, every environment and every free value, unless its title says
otherwise. -/

namespace Sys2Proof.Machine

/-! ### The words of the statements -/

/-- The flags of an addition (R82), with V by sign bits as well as by range. -/
def AddFlags (a b : Word) (cin : Nat) (f : Flags) : Prop :=
  (f.z = true ↔ (a.toNat + b.toNat + cin) % 65536 = 0) ∧
    (f.n = true ↔ 32768 ≤ (a.toNat + b.toNat + cin) % 65536) ∧
    (f.c = true ↔ 65536 ≤ a.toNat + b.toNat + cin) ∧
    (f.v = true ↔ (a.toInt + b.toInt + cin < -32768 ∨ 32767 < a.toInt + b.toInt + cin)) ∧
    (f.v = true ↔ (a.msb = b.msb ∧ f.n ≠ a.msb))

/-- The flags of a subtraction (R83): C is the borrow; V by sign bits as well as by range. -/
def SubFlags (a b : Word) (bin : Nat) (f : Flags) : Prop :=
  (f.z = true ↔ ((a.toNat : Int) - b.toNat - bin) % 65536 = 0) ∧
    (f.n = true ↔ 32768 ≤ ((a.toNat : Int) - b.toNat - bin) % 65536) ∧
    (f.c = true ↔ a.toNat < b.toNat + bin) ∧
    (f.v = true ↔ (a.toInt - b.toInt - bin < -32768 ∨ 32767 < a.toInt - b.toInt - bin)) ∧
    (f.v = true ↔ (a.msb ≠ b.msb ∧ f.n ≠ a.msb))

/-- The flags of a logical result (R84). -/
def LogicalFlags (r : Word) (f : Flags) : Prop :=
  (f.z = true ↔ r = 0) ∧ f.n = r.msb ∧ f.c = false ∧ f.v = false

/-- The flags of a test result (R85): C and V are the old ones. -/
def TestFlags (r : Word) (old f : Flags) : Prop :=
  (f.z = true ↔ r = 0) ∧ f.n = r.msb ∧ f.c = old.c ∧ f.v = old.v

/-- The automatic update (R81, R102): by the class with `u = alu`, by the shift (whose flags are a free value) with `u = shift`, none with
`u = none`. `a` and `b` are the operands before the shift. -/
def UpdateRule (c : AluControl) (a b : Word) (byClass : Flags → Prop) (s t : State) : Prop :=
  (c.update = .alu → byClass (flagsOf t.sr)) ∧
    (c.update = .none → flagsOf t.sr = flagsOf s.sr) ∧
    ∀ sh, c.update = .shift → c.shift = some sh →
      (flagsOf t.sr).nibble = Config.shiftFlags sh a b (flagsOf s.sr).nibble

/-- The frame of an ALU instruction that writes at most the registers `ds` and the flags: control at the next line. -/
def AluFrame (ds : List FileReg) (s t : State) : Prop :=
  SameRegsExcept ds s t ∧ SameSrExcept [0, 1, 2, 3] s t ∧ CompletedAt (s.pc + 1) s t ∧ SameRest s t

/-- The operands of a writing instruction as read, before any shift (R80 step 3). -/
def writeRead (s : State) (o : WriteOps) : Word × Word :=
  (readSource s s.draws (writeSrcA o), readSource s (s.draws + 1) (writeSrcB o))

/-- The operands of a compare or test instruction as read, before any shift (R80 step 3). -/
def testRead (s : State) (o : TestOps) : Word × Word :=
  (readSource s s.draws (testSrcA o), readSource s (s.draws + 1) (testSrcB o))

/-- The operands an operation works on: as read, or after the shift component (R102). -/
def operands (c : AluControl) (x : Word × Word) : Word × Word :=
  match c.shift with
  | none => x
  | some sh => Config.shiftOps sh x.1 x.2

/-- The carry as a 16-bit number. -/
def carryWord (s : State) : Word := if srC s.sr then 1 else 0

/-- Each writing ALU instruction with the result the spec gives it on operands `x` (R88 to R95). -/
def writingResults (o : WriteOps) (c : AluControl) (s : State) (x : Word × Word) : List (Instr × Word) :=
  [(.addi o c, x.1 + x.2), (.addr o c, x.1 + x.2), (.adci o c, x.1 + x.2 + carryWord s),
   (.subi o c, x.1 - x.2), (.sbci o c, x.1 - x.2 - carryWord s),
   (.andi o c, x.1 &&& x.2), (.orri o c, x.1 ||| x.2), (.xori o c, x.1 ^^^ x.2)]

/-- The writing ALU instructions (R88 to R95). -/
def writingInstrs (o : WriteOps) (c : AluControl) : List Instr :=
  [.addi o c, .subi o c, .adci o c, .sbci o c, .addr o c, .andi o c, .orri o c, .xori o c]

/-- The compare and test instructions (R96 to R101). -/
def readingInstrs (o : TestOps) (c : AluControl) : List Instr :=
  [.cmpi o c, .cmpr o c, .tsai o c, .tsar o c, .tsxi o c, .tsxr o c]

/-- A write of `v` to `sr` turns on neither W nor H (R29), nor T without `HAS_TRACE` (R153), in supervisor mode. -/
def SrWriteAdmitted (s : State) (v : Word) : Prop :=
  srP s.sr = true ∨
    ((srW v = true → srW s.sr = true) ∧ (srH v = true → srH s.sr = true) ∧
      (srT v = true → srT s.sr = true ∨ s.params.hasTrace = true))

/-- `sr` in `t` is `sr` in `s` after the masked write of `v` (R26). -/
def SrWritten (v : Word) (s t : State) : Prop :=
  ∀ j, j < 16 → t.sr.getLsbD j = if srP s.sr = true ∧ 8 ≤ j then s.sr.getLsbD j else v.getLsbD j

/-- The segment part of a calculation's address: the high member of the operand's pair (R50). -/
def segmentOf (k : AddressCalc) : Word :=
  match Config.addrPair k.operand with
  | .link => k.regs.lh
  | .address => k.regs.ah
  | .stack => k.regs.sh
  | .program => k.regs.ph

/-- The offset part the operand's pair holds: its low member (R50, R31). -/
def offsetOf (k : AddressCalc) : Word :=
  match Config.addrPair k.operand with
  | .link => k.regs.ll
  | .address => k.regs.al
  | .stack => k.regs.sl
  | .program => k.regs.pl

/-- The address of a calculation that does not overflow: the pair's segment, its offset and what the operand adds (R50, R52; log 16). -/
def plainAddress (k : AddressCalc) : Address := ⟨segmentOf k, (offsetOf k).toNat + Config.displacement k⟩

/-- The silently wrapped address of a calculation that overflows (R50, R51; log 16). -/
def wrappedAddress (k : AddressCalc) : Address := ⟨segmentOf k, Config.wrapOffset k⟩

/-- The address of a calculation, wrapped silently if it overflows (R51). -/
def addressOrWrap (k : AddressCalc) : Address :=
  if Config.addrOverflow k = true then wrappedAddress k else plainAddress k

/-- The calculation raises no `AddressOverflow` (R51): A is clear, or it does not overflow. -/
def NoOverflowTrap (s : State) (k : AddressCalc) : Prop := ¬(srA s.sr = true ∧ Config.addrOverflow k = true)

/-- What a supervisor write of `v` to `sr` comes to (R29, R153, R26): refused by name if it turns on W or H, refused by its own name
if it turns on T without `HAS_TRACE`, else performed with all sixteen bits. A T kept at 1 is no setting of T (log 24). -/
def SrWriteOutcome (s : State) (v : Word) (o : Out) : Prop :=
  if (srW v = true ∧ srW s.sr = false) ∨ (srH v = true ∧ srH s.sr = false) then o = .refused .srWriteSetsWOrH
  else if srT v = true ∧ srT s.sr = false ∧ s.params.hasTrace = false then o = .refused .traceNotImplemented
  else ∃ t, o = .next t ∧ t.sr = v

/-- The predicate of a condition code on the bits of `sr`, by the text of R122 to R133. -/
def condTrue (sr : Word) : Cond → Prop
  | .eq => sr.getLsbD 0 = true
  | .ne => sr.getLsbD 0 = false
  | .negSet => sr.getLsbD 1 = true
  | .negClear => sr.getLsbD 1 = false
  | .carrySet => sr.getLsbD 2 = true
  | .carryClear => sr.getLsbD 2 = false
  | .overflowSet => sr.getLsbD 3 = true
  | .overflowClear => sr.getLsbD 3 = false
  | .unsignedHigher => sr.getLsbD 2 = false ∧ sr.getLsbD 0 = false
  | .unsignedLowerOrSame => sr.getLsbD 2 = true ∨ sr.getLsbD 0 = true
  | .signedGreaterOrEqual => sr.getLsbD 1 = sr.getLsbD 3
  | .signedLess => sr.getLsbD 1 ≠ sr.getLsbD 3
  | .signedGreater => sr.getLsbD 0 = false ∧ sr.getLsbD 1 = sr.getLsbD 3
  | .signedLessOrEqual => sr.getLsbD 0 = true ∨ sr.getLsbD 1 ≠ sr.getLsbD 3

/-- What a condition code means after a compare of `a` with `b` (R122 to R134). -/
def compareMeans (a b : Word) : Cond → Prop
  | .eq => a = b
  | .ne => a ≠ b
  | .negSet => 32768 ≤ ((a.toNat : Int) - b.toNat) % 65536
  | .negClear => ((a.toNat : Int) - b.toNat) % 65536 < 32768
  | .carrySet => a.toNat < b.toNat
  | .carryClear => b.toNat ≤ a.toNat
  | .overflowSet => a.toInt - b.toInt < -32768 ∨ 32767 < a.toInt - b.toInt
  | .overflowClear => -32768 ≤ a.toInt - b.toInt ∧ a.toInt - b.toInt ≤ 32767
  | .unsignedHigher => b.toNat < a.toNat
  | .unsignedLowerOrSame => a.toNat ≤ b.toNat
  | .signedGreaterOrEqual => b.toInt ≤ a.toInt
  | .signedLess => a.toInt < b.toInt
  | .signedGreater => b.toInt < a.toInt
  | .signedLessOrEqual => a.toInt ≤ b.toInt

/-- The order of priorities (R157): nmi above other above high above medium above low. -/
def rank : Priority → Nat
  | .low => 0
  | .medium => 1
  | .high => 2
  | .other => 3
  | .nmi => 4

/-- A request that may be taken: pending, of a priority this implementation has, and not masked (R156). -/
def Takeable (s : State) (q : Priority) : Prop :=
  q ∈ s.pending ∧ (q = .other → s.params.level4 = true) ∧ masked s.sr q = false

/-- The state after the environment's first event is used up. -/
def dropEvent (s : State) : State := { s with env := s.env.tail }

/-- The environment lets the CPU take this turn. -/
def CpuTurn (s : State) : Prop := s.env = [] ∨ ∃ es, s.env = .proceed :: es

/-- The program holds `i` at the pc: a text that decodes to it, or the well-formed term itself (log 41). -/
def RunsNext (s : State) (i : Instr) : Prop :=
  (∃ l, s.text[s.pc]? = some (.text l) ∧ decode l = .ok i) ∨ (s.text[s.pc]? = some (.term i) ∧ WellFormed i = true)

/-- Where an interrupt returns (R160): the next instruction to execute, but for one that ends a `WAIT` on an implementation that
returns to that `WAIT` (log 11). -/
def interruptReturnPoint (s : State) : PC := if s.params.waitReturn = .same then s.waitAt.getD s.pc else s.pc

end Sys2Proof.Machine

open Sys2Proof Sys2Proof.Machine

/-! ### The flag rules -/

/-- R82: sum, Z, N, C and V of an addition with carry-in. -/
def Obligations.AdditionFlagRule : Prop :=
  ∀ (a b : Word) (cin : Bool),
    (aluAdd a b cin).value.toNat = (a.toNat + b.toNat + cin.toNat) % 65536 ∧
      AddFlags a b cin.toNat (aluAdd a b cin).flags

/-- R83: difference, Z, N, C (the borrow) and V of a subtraction with borrow-in; with no borrow-in C is `u(a) < u(b)`. -/
def Obligations.SubtractionFlagRule : Prop :=
  ∀ (a b : Word) (bin : Bool),
    ((aluSub a b bin).value.toNat : Int) = ((a.toNat : Int) - b.toNat - bin.toNat) % 65536 ∧
      SubFlags a b bin.toNat (aluSub a b bin).flags

/-- R84 and R85: the flags of a logical result, C and V cleared, and of a test result, C and V the old ones. -/
def Obligations.LogicalAndTestFlagRules : Prop :=
  ∀ (r : Word) (old : Flags), LogicalFlags r (aluLogical r).flags ∧ TestFlags r old (aluTest r old).flags

/-! ### The ALU instructions -/

/-- ADDI, ADDR and ADCI complete into a register of the file wherever the mode lets them (R80, R88, R90, R92; what ADCI computes is
decision D7, log 25; that ADDR is in the arithmetic class is decision D6, log 26). A shift component's operands and flags are free
values (R102; log 15). -/
def Obligations.AdditionsComplete : Prop :=
  ∀ (o : WriteOps) (c : AluControl) (s : State) (g : FileReg),
    c.wf = true → writeDest o = .file g → ¬(isHighFile g = true ∧ srP s.sr = true) → writeReadable s o = true →
    ∀ i cin, (i, cin) ∈ [(Instr.addi o c, 0), (Instr.addr o c, 0), (Instr.adci o c, (srC s.sr).toNat)] →
    ∃ t, exec i s = .next t ∧
      (t.regs.get g).toNat =
        ((operands c (writeRead s o)).1.toNat + (operands c (writeRead s o)).2.toNat + cin) % 65536 ∧
      UpdateRule c (writeRead s o).1 (writeRead s o).2
        (AddFlags (operands c (writeRead s o)).1 (operands c (writeRead s o)).2 cin) s t ∧
      AluFrame [g] s t

/-- SUBI and SBCI complete into a register of the file wherever the mode lets them (R80, R89, R91; what they compute is decision D7, log
25). A shift component's operands and flags are free values (R102; log 15). -/
def Obligations.SubtractionsComplete : Prop :=
  ∀ (o : WriteOps) (c : AluControl) (s : State) (g : FileReg),
    c.wf = true → writeDest o = .file g → ¬(isHighFile g = true ∧ srP s.sr = true) → writeReadable s o = true →
    ∀ i bin, (i, bin) ∈ [(Instr.subi o c, 0), (Instr.sbci o c, (srC s.sr).toNat)] →
    ∃ t, exec i s = .next t ∧
      ((t.regs.get g).toNat : Int) =
        (((operands c (writeRead s o)).1.toNat : Int) - (operands c (writeRead s o)).2.toNat - bin) % 65536 ∧
      UpdateRule c (writeRead s o).1 (writeRead s o).2
        (SubFlags (operands c (writeRead s o)).1 (operands c (writeRead s o)).2 bin) s t ∧
      AluFrame [g] s t

/-- ANDI, ORRI and XORI complete into a register of the file wherever the mode lets them (R80, R84, R93 to R95; XORI by decision D7, log
25). A shift component's operands and flags are free values (R102; log 15). -/
def Obligations.LogicalsComplete : Prop :=
  ∀ (o : WriteOps) (c : AluControl) (s : State) (g : FileReg),
    c.wf = true → writeDest o = .file g → ¬(isHighFile g = true ∧ srP s.sr = true) → writeReadable s o = true →
    ∀ i r, (i, r) ∈
        [(Instr.andi o c, (operands c (writeRead s o)).1 &&& (operands c (writeRead s o)).2),
         (Instr.orri o c, (operands c (writeRead s o)).1 ||| (operands c (writeRead s o)).2),
         (Instr.xori o c, (operands c (writeRead s o)).1 ^^^ (operands c (writeRead s o)).2)] →
    ∃ t, exec i s = .next t ∧ t.regs.get g = r ∧
      UpdateRule c (writeRead s o).1 (writeRead s o).2 (LogicalFlags r) s t ∧ AluFrame [g] s t

/-- CMPI and CMPR complete, writing the flags of `a - b` and no register, wherever the mode lets them read (R96, R97). A shift
component's operands and flags are free values (R102; log 15). -/
def Obligations.ComparesComplete : Prop :=
  ∀ (o : TestOps) (c : AluControl) (s : State), c.wf = true → testReadable s o = true →
    ∀ i, i ∈ [Instr.cmpi o c, Instr.cmpr o c] →
    ∃ t, exec i s = .next t ∧
      UpdateRule c (testRead s o).1 (testRead s o).2
        (SubFlags (operands c (testRead s o)).1 (operands c (testRead s o)).2 0) s t ∧
      AluFrame [] s t

/-- TSAI, TSAR, TSXI and TSXR complete, writing Z and N and no register, wherever the mode lets them read (R85, R98 to R101; the TSX pair
by decision D7, log 25). A shift component's operands and flags are free values (R102; log 15). -/
def Obligations.TestsComplete : Prop :=
  ∀ (o : TestOps) (c : AluControl) (s : State), c.wf = true → testReadable s o = true →
    ∀ i r, (i, r) ∈
        [(Instr.tsai o c, (operands c (testRead s o)).1 &&& (operands c (testRead s o)).2),
         (Instr.tsar o c, (operands c (testRead s o)).1 &&& (operands c (testRead s o)).2),
         (Instr.tsxi o c, (operands c (testRead s o)).1 ^^^ (operands c (testRead s o)).2),
         (Instr.tsxr o c, (operands c (testRead s o)).1 ^^^ (operands c (testRead s o)).2)] →
    ∃ t, exec i s = .next t ∧
      UpdateRule c (testRead s o).1 (testRead s o).2 (TestFlags r (flagsOf s.sr)) s t ∧ AluFrame [] s t

/-- A writing ALU instruction with destination `sr` writes its result by the masked write and makes no automatic update, whatever its
control says; no register changes (R26, R86; decision D5, log 26). A shift component's operands are free values (R102; log 15), and
a write that keeps T is admitted without `HAS_TRACE` (log 24). -/
def Obligations.AluWritesStatusRegister : Prop :=
  ∀ (o : WriteOps) (c : AluControl) (s : State),
    c.wf = true → writeDest o = .sr → writeReadable s o = true →
    ∀ e, e ∈ writingResults o c s (operands c (writeRead s o)) → SrWriteAdmitted s e.2 →
    ∃ t, exec e.1 s = .next t ∧ SrWritten e.2 s t ∧ SameRegsExcept [] s t ∧ CompletedAt (s.pc + 1) s t ∧ SameRest s t

/-- A supervisor-mode write of `sr` by any instruction with destination `sr`, ALU, LOAD or LDEA: one that turns on W or H is refused, one
that turns on T without `HAS_TRACE` is refused by its own name, any other is performed (R29, R112, R153). A write that keeps T is
performed (log 24); shifted operands (log 15), the address (log 16) and LDEA's value and form (log 17) are free. -/
def Obligations.StatusWriteRefusals : Prop :=
  ∀ s : State, srP s.sr = false →
    (∀ (o : WriteOps) (c : AluControl), c.wf = true → writeDest o = .sr → writeReadable s o = true →
      ∀ e, e ∈ writingResults o c s (operands c (writeRead s o)) → SrWriteOutcome s e.2 (exec e.1 s)) ∧
    (∀ a : AddrOperand, NoOverflowTrap s (addressCalc .load a s) →
      admitted s.params.mem (Config.place (addressOrWrap (addressCalc .load a s))) (loadBytes s.params.mem.loadWidth) = true →
      SrWriteOutcome s (memRead s.params.mem s.mem (Config.place (addressOrWrap (addressCalc .load a s))))
        (exec (.load .sr a) s)) ∧
    (∀ a : AddrOperand, NoOverflowTrap s (addressCalc .ldea a s) →
      SrWriteOutcome s (Config.addressPart (addressOrWrap (addressCalc .ldea a s)) .sr) (exec (.ldea (.reg .sr) a) s))

/-- Shapes S1, S2, S3 of ADDI, plain, between registers of the file in supervisor mode: S1 adds to the destination itself; all
sources are read before the destination is written (R68, R80, R88). -/
def Obligations.AddiShapes : Prop :=
  ∀ (s : State) (d x y : FileReg) (v : Word), srP s.sr = false →
    (∃ t, exec (.addi (.s1 (.file d) v) .plain) s = .next t ∧ t.regs.get d = s.regs.get d + v) ∧
      (∃ t, exec (.addi (.s2 (.file d) (.file x) v) .plain) s = .next t ∧ t.regs.get d = s.regs.get x + v) ∧
      (∃ t, exec (.addi (.s3 (.file d) (.file x) (.file y)) .plain) s = .next t ∧
        t.regs.get d = s.regs.get x + s.regs.get y)

/-- In protected mode an ALU instruction whose source is `lh`, `ah`, `sh` or `ph`, and whose destination is not one of them, is
refused by name; the destination is checked first (R32, R80 steps 2 and 3). -/
def Obligations.ProtectedHighSourceRefused : Prop :=
  ∀ (s : State) (c : AluControl) (r : FileReg), srP s.sr = true → c.wf = true → isHighFile r = true →
    (∀ (o : WriteOps), isHighReg (writeDest o) = false → (writeSrcA o = .reg (.file r) ∨ writeSrcB o = .reg (.file r)) →
      ∀ i ∈ writingInstrs o c, exec i s = .refused .protectedReadOfHighAddressRegister) ∧
    (∀ (o : TestOps), (testSrcA o = .reg (.file r) ∨ testSrcB o = .reg (.file r)) →
      ∀ i ∈ readingInstrs o c, exec i s = .refused .protectedReadOfHighAddressRegister)

/-- `u = shift` on an instruction with no shift component is refused (R102). -/
def Obligations.ShiftUpdateNeedsShift : Prop :=
  ∀ (s : State) (o : WriteOps) (p : TestOps) (c : AluControl), c.update = .shift → c.shift = none →
    (∀ i ∈ writingInstrs o c, exec i s = .refused .notInSpec) ∧ ∀ i ∈ readingInstrs p c, exec i s = .refused .notInSpec

/-! ### Reading `sr` -/

/-- `ADDR rd, sr, #0` copies the masked view of `sr` (R25) into a register and then updates the live flags from that value, so C and V
become 0 (R92, R103; that ADDR is in the arithmetic class, so updates all four flags, is decision D6, log 26). -/
def Obligations.ReadingStatusDisturbsFlags : Prop :=
  ∀ (s : State) (g : FileReg), ¬(isHighFile g = true ∧ srP s.sr = true) →
    ∃ t, exec (.addr (.s2 (.file g) .sr 0) .plain) s = .next t ∧
      (∀ j, j < 4 → (t.regs.get g).getLsbD j = s.sr.getLsbD j) ∧
      (∀ j, 4 ≤ j → j < 8 → s.params.reservedRead = .stored → (t.regs.get g).getLsbD j = s.sr.getLsbD j) ∧
      (∀ j, 8 ≤ j → (t.regs.get g).getLsbD j = (!(srP s.sr) && s.sr.getLsbD j)) ∧
      srC t.sr = false ∧ srV t.sr = false ∧ (srZ t.sr = true ↔ t.regs.get g = 0) ∧ srN t.sr = (t.regs.get g).msb ∧
      (∀ j, 4 ≤ j → t.sr.getLsbD j = s.sr.getLsbD j)

/-- The operand read of `sr` (R25, R17): all of it in supervisor mode and bits 7 to 0 in protected mode, bits 7:4 as `RESERVED_READ`
gives them: a free value, the stored bits, or zero. -/
def Obligations.StatusReadByMode : Prop :=
  ∀ (p : Params) (k : Nat) (sr : Word),
    (∀ j, j < 4 → (readSr p k sr).getLsbD j = sr.getLsbD j) ∧
      (∀ j, 8 ≤ j → (readSr p k sr).getLsbD j = (!(sr.getLsbD 8) && sr.getLsbD j)) ∧
      (p.reservedRead = .stored → ∀ j, 4 ≤ j → j < 8 → (readSr p k sr).getLsbD j = sr.getLsbD j) ∧
      (p.reservedRead = .zero → ∀ j, 4 ≤ j → j < 8 → (readSr p k sr).getLsbD j = false) ∧
      (p.reservedRead = .draw → ∀ j, j < 4 →
        (readSr p k sr).getLsbD (4 + j) = (Config.reservedDraw k (sr.extractLsb' 4 4)).getLsbD j)

/-- The operand write of `sr` (R26): in protected mode it is never refused and reaches bits 7 to 0 only, the upper byte unchanged; in
supervisor mode, unless R29 or R153 refuses it, it stores all sixteen bits; nothing but `sr` changes. A write that keeps T is not
refused without `HAS_TRACE` (log 24). -/
def Obligations.StatusWriteByMode : Prop :=
  ∀ (s : State) (v : Word),
    (srP s.sr = true → ∃ t, writeReg .sr v s = .ok t ∧
        (∀ j, j < 8 → t.sr.getLsbD j = v.getLsbD j) ∧ (∀ j, 8 ≤ j → t.sr.getLsbD j = s.sr.getLsbD j) ∧
        { t with sr := s.sr } = s) ∧
      (srP s.sr = false → SrWriteAdmitted s v → writeReg .sr v s = .ok { s with sr := v })

/-- The idiom of the listings: save `sr` with `ADDR rx, sr, #0`, restore it with `ADDR sr, rx, #0`. Where bits 7:4 read as
stored, the restore gives `sr` back whole, in either mode, although the save changed the flags (R86, R103, E8; decisions D5 and D6, log
26). -/
def Obligations.SaveThenRestoreStatus : Prop :=
  ∀ (s : State) (g : FileReg), s.params.reservedRead = .stored → ¬(isHighFile g = true ∧ srP s.sr = true) →
    ∃ t u, exec (.addr (.s2 (.file g) .sr 0) .plain) s = .next t ∧
      exec (.addr (.s2 .sr (.file g) 0) .plain) t = .next u ∧ u.sr = s.sr

/-! ### Loads -/

/-- LOAD into a register of the file completes with the value read, changes no bit of `sr` and stores nothing, wherever the mode lets it
write, no overflow traps, and `MEM` admits the access (R110, R51, R50). The address is free but for its segment part (log 16);
the bytes read are those `MEM` says (log 12). -/
def Obligations.LoadCompletes : Prop :=
  ∀ (s : State) (g : FileReg) (a : AddrOperand), ¬(isHighFile g = true ∧ srP s.sr = true) →
    NoOverflowTrap s (addressCalc .load a s) →
    admitted s.params.mem (Config.place (addressOrWrap (addressCalc .load a s))) (loadBytes s.params.mem.loadWidth) = true →
    ∃ t, exec (.load (.file g) a) s = .next t ∧
      t.regs.get g = memRead s.params.mem s.mem (Config.place (addressOrWrap (addressCalc .load a s))) ∧
      SameRegsExcept [g] s t ∧ SameSrExcept [] s t ∧ CompletedAt (s.pc + 1) s t ∧ SameRest s t

/-- LOAD into `sr`: the loaded value by the masked write, no automatic update after it, no register changed (R112, R110, R51). The
address is free but for its segment part (log 16), the bytes read are those `MEM` says (log 12), and a write that keeps T is
admitted without `HAS_TRACE` (log 24). -/
def Obligations.LoadIntoStatusRegister : Prop :=
  ∀ (s : State) (a : AddrOperand), NoOverflowTrap s (addressCalc .load a s) →
    admitted s.params.mem (Config.place (addressOrWrap (addressCalc .load a s))) (loadBytes s.params.mem.loadWidth) = true →
    SrWriteAdmitted s (memRead s.params.mem s.mem (Config.place (addressOrWrap (addressCalc .load a s)))) →
    ∃ t, exec (.load .sr a) s = .next t ∧
      SrWritten (memRead s.params.mem s.mem (Config.place (addressOrWrap (addressCalc .load a s)))) s t ∧
      SameRegsExcept [] s t ∧ CompletedAt (s.pc + 1) s t ∧ SameRest s t

/-- LDEA whose destination is not `sr` completes: each destination register takes its part of the computed address (a free value),
no other register and no bit of `sr` changes, nothing is read or stored (R111; the destination forms are the model's choice, log
17; the address, log 16; no refusal for drawing on a high member in protected mode, log 43). -/
def Obligations.LdeaCompletes : Prop :=
  ∀ (s : State) (d : LeaDest) (a : AddrOperand), Reg.sr ∉ leaRegs d →
    (∀ r ∈ leaRegs d, ¬(isHighReg r = true ∧ srP s.sr = true)) → NoOverflowTrap s (addressCalc .ldea a s) →
    ∃ t, exec (.ldea d a) s = .next t ∧
      (∀ g, Reg.file g ∈ leaRegs d →
        t.regs.get g = Config.addressPart (addressOrWrap (addressCalc .ldea a s)) (.file g)) ∧
      (∀ g, Reg.file g ∉ leaRegs d → t.regs.get g = s.regs.get g) ∧
      SameSrExcept [] s t ∧ CompletedAt (s.pc + 1) s t ∧ SameRest s t

/-- LDEA into `sr`, in either mode, where the write is not refused: the value by the masked write, no register changed (R111, R26; the form
is the model's choice, log 17; the address, log 16; a write that keeps T is admitted without `HAS_TRACE`, log 24). -/
def Obligations.LdeaIntoStatusRegister : Prop :=
  ∀ (s : State) (a : AddrOperand), NoOverflowTrap s (addressCalc .ldea a s) →
    SrWriteAdmitted s (Config.addressPart (addressOrWrap (addressCalc .ldea a s)) .sr) →
    ∃ t, exec (.ldea (.reg .sr) a) s = .next t ∧
      SrWritten (Config.addressPart (addressOrWrap (addressCalc .ldea a s)) .sr) s t ∧
      SameRegsExcept [] s t ∧ CompletedAt (s.pc + 1) s t ∧ SameRest s t

/-- R51 and R152: with A = 1 a calculation that overflows raises AddressOverflow, for LOAD into any register and for LDEA (whose
counting is free, log 17), and the trap is taken with nothing written; with A = 0 LOAD reads at the wrapped address, and a
calculation that does not overflow gives its own. Every address has the pair's high member as its segment part (R50). The rest of
an address and the overflow are free (log 16); the access is one `MEM` admits (log 12). -/
def Obligations.AddressOverflowRule : Prop :=
  ∀ (s : State) (a : AddrOperand), s.saved = none →
    (∀ rd : Reg, ¬(isHighReg rd = true ∧ srP s.sr = true) → srA s.sr = true →
      Config.addrOverflow (addressCalc .load a s) = true →
      ∃ t, exec (.load rd a) s = .next t ∧ TrapTaken .addressOverflow (returnAt s.params.overflowReturn s.pc) s t) ∧
    (∀ d : LeaDest, (∀ r ∈ leaRegs d, ¬(isHighReg r = true ∧ srP s.sr = true)) → srA s.sr = true →
      Config.addrOverflow (addressCalc .ldea a s) = true →
      ∃ t, exec (.ldea d a) s = .next t ∧ TrapTaken .addressOverflow (returnAt s.params.overflowReturn s.pc) s t) ∧
    (∀ g : FileReg, ¬(isHighFile g = true ∧ srP s.sr = true) → srA s.sr = false →
      Config.addrOverflow (addressCalc .load a s) = true →
      admitted s.params.mem (Config.place (wrappedAddress (addressCalc .load a s))) (loadBytes s.params.mem.loadWidth) =
        true →
      ∃ t, exec (.load (.file g) a) s = .next t ∧
        t.regs.get g = memRead s.params.mem s.mem (Config.place (wrappedAddress (addressCalc .load a s)))) ∧
    (∀ g : FileReg, ¬(isHighFile g = true ∧ srP s.sr = true) → Config.addrOverflow (addressCalc .load a s) = false →
      admitted s.params.mem (Config.place (plainAddress (addressCalc .load a s))) (loadBytes s.params.mem.loadWidth) =
        true →
      ∃ t, exec (.load (.file g) a) s = .next t ∧
        t.regs.get g = memRead s.params.mem s.mem (Config.place (plainAddress (addressCalc .load a s))))

/-- An access `MEM` does not admit has no step, for a LOAD that is not stopped before it, by its destination or by an overflow (R54; the
fault is log 12, the address log 16). -/
def Obligations.UnadmittedAccessFaults : Prop :=
  ∀ (s : State) (rd : Reg) (a : AddrOperand), ¬(isHighReg rd = true ∧ srP s.sr = true) →
    NoOverflowTrap s (addressCalc .load a s) →
    admitted s.params.mem (Config.place (addressOrWrap (addressCalc .load a s))) (loadBytes s.params.mem.loadWidth) = false →
    exec (.load rd a) s = .fault .accessNotAdmitted

/-! ### Branches -/

/-- Each condition code's predicate on the bits of `sr` (R121 to R133; R130 to R133 are the spec's derivations, decisions D11 and D12, and
the three codes of R133 have no spelling, log 32). -/
def Obligations.ConditionCodes : Prop := ∀ (sr : Word) (cc : Cond), (flagsOf sr).holds cc = true ↔ condTrue sr cc

/-- BRAN goes to its label exactly if its condition holds on bits 3 to 0 of `sr`, else to the next line; `sr` and every register
are unchanged (R120 to R133). -/
def Obligations.BranchByCondition : Prop :=
  ∀ (cc : Cond) (l : Label) (s : State) (target : PC), labelTarget s.labels l = some target →
    ∃ t, exec (.bran cc l) s = .next t ∧
      (condTrue s.sr cc → CompletedAt target s t) ∧ (¬condTrue s.sr cc → CompletedAt (s.pc + 1) s t) ∧
      SameRegsExcept [] s t ∧ SameSrExcept [] s t ∧ SameRest s t

/-- A branch that is not taken needs no label; a taken branch to a label the text does not define is refused (the model's choice, log
3). -/
def Obligations.UndefinedLabel : Prop :=
  ∀ (cc : Cond) (l : Label) (s : State), labelTarget s.labels l = none →
    (condTrue s.sr cc → exec (.bran cc l) s = .refused .undefinedLabel) ∧
      (¬condTrue s.sr cc → ∃ t, exec (.bran cc l) s = .next t ∧ t.pc = s.pc + 1)

/-- After `CMPI ra, rb` or `CMPR ra, rb` every condition code tests the comparison its name says: unsigned and signed order,
equality, borrow (R122 to R134). -/
def Obligations.CompareThenCondition : Prop :=
  ∀ (s : State) (ra rb : FileReg), srP s.sr = false →
    ∀ i, i ∈ [Instr.cmpi (.s4 (.file ra) (.file rb)) .plain, Instr.cmpr (.s4 (.file ra) (.file rb)) .plain] →
    ∃ t, exec i s = .next t ∧
      ∀ cc, condTrue t.sr cc ↔ compareMeans (s.regs.get ra) (s.regs.get rb) cc

/-! ### System instructions -/

/-- WAIT in supervisor mode sets W and changes nothing else of `sr` and no register (R140); the model keeps its position (log 11). -/
def Obligations.WaitCompletes : Prop :=
  ∀ s : State, srP s.sr = false →
    ∃ t, exec .wait s = .next t ∧ srW t.sr = true ∧ SameSrExcept [12] s t ∧ SameRegsExcept [] s t ∧
      CompletedAt (s.pc + 1) s t ∧ t.waitAt = some s.pc ∧ SameRest s { t with waitAt := s.waitAt }

/-- HALT in supervisor mode, where implemented, sets H and changes nothing else of `sr`, no register and no memory; no Trace follows
(R141). The pc moves to the next line: the model's choice, log 44. -/
def Obligations.HaltCompletes : Prop :=
  ∀ s : State, srP s.sr = false → s.params.hasHalt = true →
    ∃ t, exec .halt s = .next t ∧ srH t.sr = true ∧ t.traceDue = false ∧ t.pc = s.pc + 1 ∧ SameSrExcept [13] s t ∧
      SameRegsExcept [] s t ∧ SameRest s t

/-- RETE in supervisor mode with a saved context restores all sixteen bits of `sr` and the return point, and empties the slot (R142, R162;
the one slot is decision D21, log 18); restoring T needs `HAS_TRACE` unless T is set already (R153; log 24). -/
def Obligations.ReteCompletes : Prop :=
  ∀ (s : State) (c : Saved), srP s.sr = false → s.saved = some c →
    (srT c.sr = true → srT s.sr = true ∨ s.params.hasTrace = true) →
    ∃ t, exec .rete s = .next t ∧ t.sr = c.sr ∧ t.saved = none ∧ t.waitAt = s.waitAt ∧ CompletedAt c.ret s t ∧ SameRegsExcept [] s t ∧
      (∀ a, t.mem.read a = s.mem.read a) ∧ t.pending = s.pending ∧ t.text = s.text ∧ t.labels = s.labels ∧
      t.env = s.env ∧ t.params = s.params

/-- Where the system instructions stop: in protected mode all three are refused, HALT only after its feature check; HALT faults
where it is not implemented; RETE is refused with nothing saved, and, by its own name, where it would turn on T without `HAS_TRACE`
(R141, R142, R144, R153; log 24). -/
def Obligations.SystemInstructionStops : Prop :=
  ∀ s : State,
    (srP s.sr = true → exec .wait s = .refused .systemInstructionInProtectedMode) ∧
      (srP s.sr = true → exec .rete s = .refused .systemInstructionInProtectedMode) ∧
      (s.params.hasHalt = false → exec .halt s = .fault .haltNotImplemented) ∧
      (s.params.hasHalt = true → srP s.sr = true → exec .halt s = .refused .systemInstructionInProtectedMode) ∧
      (srP s.sr = false → s.saved = none → exec .rete s = .refused .reteWithoutSavedSr) ∧
      (∀ c : Saved, srP s.sr = false → s.saved = some c → srT c.sr = true → srT s.sr = false → s.params.hasTrace = false →
        exec .rete s = .refused .traceNotImplemented)

/-- A step at a coprocessor operation (R76, R143): a privileged one, above `0x07xx`, faults in protected mode; any other leaves in the
registers what `COPROC` gives (a free value, log 29), in protected mode less the high members, with `sr`, memory and the rest as
they were, and is refused where the parameter has no value. That the line is given by its opcode is log 41, that it may draw on the high
members in protected mode log 45. -/
def Obligations.CoprocessorBoundary : Prop :=
  ∀ (opcode : Word) (s : State), CpuTurn s → srH s.sr = false → srW s.sr = false → s.traceDue = false →
    s.text[s.pc]? = some (.coprocessor opcode) →
    if 7 < (opcode.extractLsb' 8 8).toNat ∧ srP s.sr = true then step s = .fault .privilegedCoprocessorOperation
    else
      match Config.coproc s.draws opcode s.regs with
      | none => step s = .refused .coprocessorUnmodelled
      | some f => ∃ t, step s = .next t ∧
          (∀ g, t.regs.get g = if isHighFile g = true ∧ srP s.sr = true then s.regs.get g else f.get g) ∧
          SameSrExcept [] s t ∧ CompletedAt (s.pc + 1) s t ∧ SameRest (dropEvent s) t

/-! ### Traps and interrupts -/

/-- R158, for every kind of trap: what is saved, what becomes of `sr`, where control goes, and that nothing else changes; a second
trap while one is saved is refused (log 18). That interrupts enter alike is decision D19 (log 39), that W is cleared before the save
D20 (log 27), that pending requests stay pending the model's choice (log 20), that a due Trace stays due too (R157; log 21), and the
position of a `WAIT` goes (log 11). -/
def Obligations.TrapEntryEffects : Prop :=
  ∀ (k : TrapKind) (ret : PC) (s : State),
    match s.saved with
    | some _ => trapEntry k ret s = .refused .nestedTrap
    | none => ∃ t, trapEntry k ret s = .next t ∧ TrapTaken k ret s t ∧ t.env = s.env ∧ t.traceDue = s.traceDue ∧ t.draws = s.draws

/-- Any instruction with a privileged destination in protected mode raises PrivilegeViolation: the trap is taken and nothing else happens,
for every ALU instruction that writes, LOAD and LDEA (R32, R151, R158, R161; LDEA's forms are log 17, what stays pending log 20); with
a context saved it is refused as a nested trap (R158 step 0; log 18). -/
def Obligations.PrivilegedDestinationTraps : Prop :=
  ∀ (i : Instr) (s : State), WellFormed i = true → srP s.sr = true → (∃ r ∈ destinations i, isHighReg r = true) →
    match s.saved with
    | some _ => exec i s = .refused .nestedTrap
    | none => ∃ t, exec i s = .next t ∧ TrapTaken .privilegeViolation (returnAt s.params.privilegeReturn s.pc) s t ∧
        t.env = s.env ∧ t.traceDue = s.traceDue ∧ t.draws = s.draws

/-- A trap taken while the CPU is not waiting, then RETE at once in the handler: `sr` and the pc are those of the interrupted code
again, all sixteen bits (R158, R162; interrupts alike by decision D19, log 39; one slot, log 18). -/
def Obligations.TrapThenReteRestores : Prop :=
  ∀ (k : TrapKind) (ret : PC) (s : State), s.saved = none → srW s.sr = false →
    (srT s.sr = true → s.params.hasTrace = true) →
    ∃ t u, trapEntry k ret s = .next t ∧ exec .rete t = .next u ∧ u.sr = s.sr ∧ u.pc = ret ∧ u.regs = s.regs ∧ u.saved = none

/-- R19 and R20: which priorities the three mask bits mask, for all eight masks; NMI never. The clause for the priority `other` is the
spec's derivation (R20, D40). -/
def Obligations.InterruptMaskTable : Prop :=
  ∀ sr : Word,
    (masked sr .low = true ↔
        1 ≤ 4 * (sr.getLsbD 11).toNat + 2 * (sr.getLsbD 10).toNat + (sr.getLsbD 9).toNat) ∧
      (masked sr .medium = true ↔
        2 ≤ 4 * (sr.getLsbD 11).toNat + 2 * (sr.getLsbD 10).toNat + (sr.getLsbD 9).toNat) ∧
      (masked sr .high = true ↔
        3 ≤ 4 * (sr.getLsbD 11).toNat + 2 * (sr.getLsbD 10).toNat + (sr.getLsbD 9).toNat) ∧
      (masked sr .other = true ↔ sr.getLsbD 11 = true) ∧
      masked sr .nmi = false

/-- At a boundary at which the environment lets a request be taken and the CPU is not halted: the pending unmasked request of highest
priority is taken as a trap; with none, nothing but the event goes (R156, R157, R158, decisions D26, D27: logs 19, 38). The return point
out of a `WAIT` is that `WAIT` or the instruction after it (R160; log 11), and the taken request stays pending (the model's
choice, log 20). -/
def Obligations.AcceptanceTakesHighest : Prop :=
  ∀ (s : State) (es : List EnvEvent), s.env = .accept :: es → srH s.sr = false → s.saved = none →
    ((∃ q, Takeable s q) → ∃ q t, Takeable s q ∧ (∀ q', Takeable s q' → rank q' ≤ rank q) ∧ step s = .next t ∧
        TrapTaken (.interrupt q) (interruptReturnPoint s) s t) ∧
      ((¬∃ q, Takeable s q) → step s = .next (dropEvent s))

/-- A halted CPU executes nothing and takes no trap: until a reset event its state does not change but for the environment's own
requests (R166). -/
def Obligations.HaltedUntilReset : Prop :=
  ∀ (s t : State), srH s.sr = true → (∀ es, s.env ≠ .reset :: es) → step s = .next t →
    t.sr = s.sr ∧ t.regs = s.regs ∧ t.pc = s.pc ∧ t.saved = s.saved ∧ t.mem = s.mem ∧ t.traceDue = s.traceDue ∧
      t.draws = s.draws ∧ t.waitAt = s.waitAt

/-- A waiting CPU that is not halted and has no Trace due executes nothing when it is its turn: the state stays (R165). -/
def Obligations.WaitingExecutesNothing : Prop :=
  ∀ s : State, srW s.sr = true → srH s.sr = false → s.traceDue = false → CpuTurn s → step s = .next (dropEvent s)

/-- A due Trace is taken before the next instruction, with that instruction as its return point, also out of the wait state (R153, R160,
R165; sampling is decision D24, log 28; the due bit is log 21; pending requests stay, log 20). -/
def Obligations.DueTraceIsTaken : Prop :=
  ∀ s : State, s.traceDue = true → srH s.sr = false → s.saved = none → CpuTurn s →
    ∃ t, step s = .next t ∧ TrapTaken .trace s.pc (dropEvent s) t ∧ t.traceDue = false

/-- An instruction started with T = 1 that answers a next state leaves a Trace due, unless it was HALT or took a synchronous
exception; started with T = 0 it leaves none due (R153; sampling is decision D24, log 28; the due bit is log 21). -/
def Obligations.TraceAfterEveryInstruction : Prop :=
  ∀ (i : Instr) (s t : State), s.params.hasTrace = true → s.traceDue = false → exec i s = .next t →
    (t.traceDue = true ↔ (srT s.sr = true ∧ i ≠ .halt ∧ ¬(s.saved = none ∧ t.saved ≠ none)))

/-! ### Steps -/

/-- When it is the CPU's turn, it is neither halted nor waiting, no Trace is due, and the line at the pc is a text that decodes to `i`, or
`i` as a well-formed term (log 41): the step is `exec i`, on the state less the environment's event (R67, R80, R156). -/
def Obligations.StepRunsDecoded : Prop :=
  ∀ (s : State) (i : Instr), CpuTurn s → srH s.sr = false → srW s.sr = false → s.traceDue = false → RunsNext s i →
    step s = exec i (dropEvent s)

/-- The other lines: none at the pc is a fault, a blank or comment line is passed over, a text that is no instruction of the spec and an
ill-formed term are refused with the reason (R67, R74, R102; the end of the text is the model's choice, log 4; terms, log 41). -/
def Obligations.StepOnOtherLines : Prop :=
  ∀ s : State, CpuTurn s → srH s.sr = false → srW s.sr = false → s.traceDue = false →
    (s.text[s.pc]? = none → step s = .fault .noInstructionAtPc) ∧
      (∀ l e, s.text[s.pc]? = some (.text l) → decode l = .error e →
        if e = .noInstruction then step s = .next { dropEvent s with pc := s.pc + 1 }
        else step s = .refused (.undecodable e)) ∧
      (∀ i, s.text[s.pc]? = some (.term i) → WellFormed i = false → step s = .refused (.undecodable .illFormedTerm))

/-- The environment's requests: a raised request of a priority the implementation has becomes pending, a withdrawn one goes, and the
CPU's own state does not change (R35). -/
def Obligations.RequestsArePending : Prop :=
  ∀ (s : State) (q : Priority) (es : List EnvEvent),
    (s.env = .raise q :: es → ∃ t, step s = .next t ∧
        (∀ p, p ∈ t.pending ↔ p ∈ s.pending ∨ (p = q ∧ (q = .other → s.params.level4 = true))) ∧
        { t with pending := s.pending } = dropEvent s) ∧
      (s.env = .withdraw q :: es → ∃ t, step s = .next t ∧
        (∀ p, t.pending.count p = s.pending.count p - if p = q then 1 else 0) ∧
        { t with pending := s.pending } = dropEvent s)

/-- A placed instruction is the one the very next step runs, from every state. -/
def Obligations.PlacedInstructionRuns : Prop :=
  ∀ (s : State) (nbits w : Nat) (i : Instr), decodeTableWord nbits w = some i →
    step (s.withFetchWord nbits w) = exec i (s.withFetchWord nbits w)

/-! ### Reset -/

/-- Reset can occur in any state, the halted one included; after it H is 0; and no other step leaves the halted state (R180). -/
def Obligations.ResetLeavesHalt : Prop :=
  (∀ (s : State) (es : List EnvEvent), s.env = .reset :: es → ∃ t, step s = .next t ∧ srH t.sr = false) ∧
    ∀ s t : State, srH s.sr = true → step s = .next t → srH t.sr = false → ∃ es, s.env = .reset :: es

/-- What else the reset event leaves: `RESET_SR` in the bits of `sr` but H, `RESET_ENTRY` in the pc, nothing saved, no `Trace` due
(R181, R182); memory, text and parameters as they were (the model's choice, log 23). -/
def Obligations.ResetEventValues : Prop :=
  ∀ (s : State) (es : List EnvEvent), s.env = .reset :: es →
    ∃ t, step s = .next t ∧ (∀ j, j ≠ 13 → t.sr.getLsbD j = s.params.resetSr.getLsbD j) ∧
      t.pc = s.params.resetEntry ∧ t.saved = none ∧ t.traceDue = false ∧ t.waitAt = none ∧ (∀ a, t.mem.read a = s.mem.read a) ∧
      t.text = s.text ∧ t.labels = s.labels ∧ t.pending = s.pending ∧ t.params = s.params ∧ t.env = es

/-- What `State.reset` has of the spec: H = 0 and nothing saved (R36, R182); and it is what the reset event gives a machine with
these parameters, so that the two do not differ (the other values are the model's, logs 4 and 6 to 9). -/
def Obligations.ResetState : Prop :=
  srH State.reset.sr = false ∧ State.reset.saved = none ∧ State.reset.traceDue = false ∧ State.reset.waitAt = none ∧
    State.reset.mem.wf = true ∧
    resetCpu State.reset = State.reset

/-! ### Memory -/

/-- Single agent, program order (R58): a read after a write of the same place gives what was written, in either byte order and at either
width; every byte outside it is as before; the canonical form is kept. R53 and R55 leave byte order and width open: the two orders and the
three widths, with their zero and sign filling, are the model's record `MEM` (log 12). -/
def Obligations.MemoryReadsLastWrite : Prop :=
  ∀ (p : MemParams) (m : Memory) (a : Nat) (v : Word), m.wf = true →
    (memWrite p m a v).wf = true ∧
      (p.loadWidth = .word → memRead p (memWrite p m a v) a = v) ∧
      (p.loadWidth = .byteZero → memRead p (memWrite p m a v) a = (v.extractLsb' 0 8).setWidth 16) ∧
      (p.loadWidth = .byteSign → memRead p (memWrite p m a v) a = (v.extractLsb' 0 8).signExtend 16) ∧
      ∀ x, ¬(a ≤ x ∧ x < a + loadBytes p.loadWidth) → (memWrite p m a v).read x = m.read x

/-! ### Whole-machine rules -/

/-- The invariant at reset. -/
def Obligations.ResetMeetsInvariant : Prop := MachineInv State.reset

/-- Every step, of the CPU or of the environment, keeps the invariant; a coprocessor operation too, since it leaves `sr` (R37; log 29), and a
reset event, which keeps memory (the model's choice, log 23). -/
def Obligations.StepKeepsInvariant : Prop :=
  ∀ s t : State, MachineInv s → step s = .next t → MachineInv t

/-- No step, the environment's included, changes a byte of memory, the program text, its labels or the parameters: no instruction of the
spec stores (R60, N20-7), a coprocessor operation does not (log 29), no other agent touches memory (decision D32, PRESUMED, log 33), the
parameters are fixed (log 35), and that a reset event keeps memory, text and labels is the model's choice (log 23). -/
def Obligations.StepStoresNothing : Prop :=
  ∀ s t : State, step s = .next t →
    (∀ a, t.mem.read a = s.mem.read a) ∧ t.text = s.text ∧ t.labels = s.labels ∧ t.params = s.params

/-- No step in protected mode changes `lh`, `ah`, `sh` or `ph`, a reset apart, and so none changes the segment part of the address any operand
has: user code cannot change memory segments (R18, R50, R57; of coprocessor operations the model's choice, log 29). -/
def Obligations.ProtectedModeKeepsSegments : Prop :=
  ∀ s t : State, srP s.sr = true → (∀ es, s.env ≠ .reset :: es) → step s = .next t →
    (∀ g, isHighFile g = true → t.regs.get g = s.regs.get g) ∧
      ∀ (k : CalcKind) (a : AddrOperand),
        (effectiveAddress (addressCalc k a t)).segment = segmentOf (addressCalc k a s)

/-- Mode changes (R164): protected to supervisor by a trap (or reset) only; supervisor to protected only by an instruction with
destination `sr`, by RETE (or by reset). -/
def Obligations.ModeChanges : Prop :=
  ∀ s t : State, (∀ es, s.env ≠ .reset :: es) → step s = .next t →
    (srP s.sr = true → srP t.sr = false → ∃ k ret, TrapTaken k ret s t) ∧
      (srP s.sr = false → srP t.sr = true → ∃ i, RunsNext s i ∧ (i = .rete ∨ Reg.sr ∈ destinations i))

/-- No instruction started in protected mode changes bits 15 to 8 of `sr`, except by taking a trap (R104, and the same of the loads and
BRAN). -/
def Obligations.ProtectedModeKeepsUpperByte : Prop :=
  ∀ (i : Instr) (s t : State), srP s.sr = true → exec i s = .next t →
    (∀ j, 8 ≤ j → t.sr.getLsbD j = s.sr.getLsbD j) ∨ ∃ k ret, TrapTaken k ret s t

/-- An ALU instruction changes bits 15 to 8 of `sr` only with destination `sr` and in supervisor mode (R104), a trap apart. -/
def Obligations.AluKeepsUpperByte : Prop :=
  ∀ (i : Instr) (s t : State), isAlu i = true → exec i s = .next t →
    (∃ j, 8 ≤ j ∧ t.sr.getLsbD j ≠ s.sr.getLsbD j) →
    (Reg.sr ∈ destinations i ∧ srP s.sr = false) ∨ TrapTaken .privilegeViolation (returnAt s.params.privilegeReturn s.pc) s t

/-- An ALU instruction or BRAN started in protected mode cannot see bits 15 to 8 of `sr`, so cannot see that it is traced, masked or run
with A set: with no privileged destination, run from two protected states that differ only there (and in what no instruction
reads) it ends alike (R25, R167). LOAD and LDEA are not named: bit A does change what they do (R51). -/
def Obligations.ProtectedModeIsBlind : Prop :=
  ∀ (i : Instr) (s s' t : State), (isAlu i = true ∨ ∃ cc l, i = .bran cc l) →
    (∀ r ∈ destinations i, isHighReg r = false) → srP s.sr = true → srP s'.sr = true → SameButUpperByte s s' →
    exec i s = .next t → ∃ t', exec i s' = .next t' ∧ SameButUpperByte t t'

/-! ### Decoding -/

/-- Decoding the text of a well-formed instruction gives it back, every operand at every value (R67 to R73; ASCII text is log 1, `LDEA reg,
operand` log 17, the names `r4 r5 r6` and the low members log 5). -/
def Obligations.DecodeEncode : Prop :=
  ∀ (i : Instr) (line : Text), WellFormed i = true → encode i = some line → decode line = .ok i

/-- What the decoder accepts is a well-formed instruction to which the model gives a spelling; nothing else gets through (R74). The spelling
`LDEA reg, operand` is by analogy (log 17) and the names `r4 r5 r6` and the low members are PRESUMED (log 5). -/
def Obligations.DecodeIsSound : Prop :=
  ∀ (line : Text) (i : Instr), decode line = .ok i → WellFormed i = true ∧ Spelled i = true

/-- Lines of the source's listings, byte by byte, decode to the instructions they stand for; `BRAN` without a condition, a mnemonic
outside the spec and a shape outside R87 are rejected by name. -/
def Obligations.ListingLinesDecode : Prop :=
  decode (chars ['O', 'R', 'R', 'I', ' ', 's', 'r', ',', ' ', '#', '0', 'x', '0', '1', '0', '0']) =
      .ok (.orri (.s1 .sr 0x0100) .plain) ∧
    decode (chars ['A', 'D', 'D', 'R', ' ', 'r', '1', ',', ' ', 's', 'r', ',', ' ', '#', '0', ' ', ';', ' ', 'x']) =
      .ok (.addr (.s2 (.file .r1) .sr 0) .plain) ∧
    decode (chars ['C', 'M', 'P', 'I', ' ', 'r', '1', ',', ' ', '#', '1', '0', '0']) =
      .ok (.cmpi (.s1 (.file .r1) 100) .plain) ∧
    decode (chars ['B', 'R', 'A', 'N', ' ', 'l']) = .error .branWithoutCondition ∧
    decode (chars ['S', 'U', 'B', 'R', ' ', 'r', '1', ',', ' ', 'r', '2']) = .error .unknownMnemonic ∧
    decode (chars ['C', 'M', 'P', 'I', ' ', 'r', '1', ',', ' ', 'r', '2', ',', ' ', 'r', '3']) = .error .shapeNotAdmitted
end

