-- ==== Sys2Proof/Laws/Bits.lean ====
section
/-! SUPPORT. What the operations on the bits of `sr` do, bit by bit: later proofs cite these lemmas and unfold no bit operation. -/

namespace Sys2Proof.Machine

theorem getLsbD_setBit {i : Nat} (hi : i < 16) (w : Word) (b : Bool) (j : Nat) :
    (setBit w i b).getLsbD j = if j = i then b else w.getLsbD j := by
  unfold setBit
  by_cases hj : j = i
  · subst hj; cases b <;> simp [hi]
  · by_cases hlt : j < 16
    · cases b <;> simp [hj, hlt]
    · cases b <;> simp [hj, hlt, BitVec.getLsbD_of_ge w j (by omega), Ne.symm hj]

/-- Two status words are equal when their sixteen bits are. -/
theorem word_ext {a b : Word} (h : ∀ j, j < 16 → a.getLsbD j = b.getLsbD j) : a = b :=
  BitVec.eq_of_getLsbD_eq h

theorem setBit_self (w : Word) {i : Nat} (hi : i < 16) {b : Bool} (h : w.getLsbD i = b) : setBit w i b = w := by
  apply word_ext
  intro j _
  rw [getLsbD_setBit hi]
  split
  · next e => rw [e, h]
  · rfl

/-- The automatic update, bit by bit (R80): flags in bits 3 to 0, everything above kept. -/
theorem getLsbD_withFlags (sr : Word) (f : Flags) (j : Nat) :
    (withFlags sr f).getLsbD j =
      if j = 0 then f.z else if j = 1 then f.n else if j = 2 then f.c else if j = 3 then f.v else sr.getLsbD j := by
  unfold withFlags
  rw [getLsbD_setBit (by decide), getLsbD_setBit (by decide), getLsbD_setBit (by decide), getLsbD_setBit (by decide)]
  by_cases h0 : j = 0
  · simp [h0]
  by_cases h1 : j = 1
  · simp [h1]
  by_cases h2 : j = 2
  · simp [h2]
  simp [h0, h1, h2]

theorem getLsbD_withFlags_high (sr : Word) (f : Flags) {j : Nat} (hj : 4 ≤ j) :
    (withFlags sr f).getLsbD j = sr.getLsbD j := by
  rw [getLsbD_withFlags]
  have h0 : j ≠ 0 := by omega
  have h1 : j ≠ 1 := by omega
  have h2 : j ≠ 2 := by omega
  have h3 : j ≠ 3 := by omega
  simp [h0, h1, h2, h3]

@[simp] theorem flagsOf_withFlags (sr : Word) (f : Flags) : flagsOf (withFlags sr f) = f := by
  simp only [flagsOf, srZ, srN, srC, srV, getLsbD_withFlags]
  rfl

@[simp] theorem withFlags_flagsOf (sr : Word) : withFlags sr (flagsOf sr) = sr := by
  apply word_ext
  intro j _
  rw [getLsbD_withFlags]
  simp only [flagsOf, srZ, srN, srC, srV]
  split_ifs <;> simp_all

/-- The mask field, bit by bit (R158 step 5). -/
theorem getLsbD_setMask (sr : Word) (m : BitVec 3) (j : Nat) :
    (setMask sr m).getLsbD j =
      if j = 9 then m.getLsbD 0 else if j = 10 then m.getLsbD 1 else if j = 11 then m.getLsbD 2 else sr.getLsbD j := by
  unfold setMask
  rw [getLsbD_setBit (by decide), getLsbD_setBit (by decide), getLsbD_setBit (by decide)]
  by_cases h0 : j = 9
  · simp [h0]
  by_cases h1 : j = 10
  · simp [h1]
  simp [h0, h1]

theorem srMask_setMask (sr : Word) (m : BitVec 3) : srMask (setMask sr m) = m := by
  apply BitVec.eq_of_getLsbD_eq
  intro j hj
  simp only [srMask, BitVec.getLsbD_extractLsb', getLsbD_setMask]
  have : j = 0 ∨ j = 1 ∨ j = 2 := by omega
  rcases this with rfl | rfl | rfl <;> simp

/-- The operand read of `sr`, bit by bit (R25). -/
theorem getLsbD_readSr (p : Params) (k : Nat) (sr : Word) (j : Nat) :
    (readSr p k sr).getLsbD j =
      if j < 4 then sr.getLsbD j
      else if j < 8 then (reservedBits p k sr).getLsbD (j - 4)
      else !(srP sr) && sr.getLsbD j := by
  unfold readSr
  rw [BitVec.getLsbD_append, BitVec.getLsbD_append]
  by_cases h4 : j < 4
  · have h8 : j < 8 := by omega
    simp [h4, h8]
  · by_cases h8 : j < 8
    · simp [h4, h8]
    · by_cases hp : srP sr
      · simp [h4, h8, hp]
      · by_cases h16 : j < 16
        · have : j - 8 < 8 := by omega
          have e : 8 + (j - 8) = j := by omega
          simp [h4, h8, hp, this, e]
        · have : ¬ j - 8 < 8 := by omega
          simp [h4, h8, hp, this, BitVec.getLsbD_of_ge sr j (by omega)]

/-- The operand write of `sr`, bit by bit (R26). -/
theorem getLsbD_maskedWrite (sr v : Word) (j : Nat) :
    (maskedWrite sr v).getLsbD j = if srP sr = true ∧ 8 ≤ j then sr.getLsbD j else v.getLsbD j := by
  unfold maskedWrite
  by_cases hp : srP sr = true
  · rw [if_pos hp, BitVec.getLsbD_append]
    by_cases h8 : j < 8
    · have : ¬ 8 ≤ j := by omega
      simp [h8, this]
    · have h8' : 8 ≤ j := by omega
      by_cases h16 : j < 16
      · have a : j - 8 < 8 := by omega
        have e : 8 + (j - 8) = j := by omega
        simp [h8, hp, h8', a, e]
      · have a : ¬ j - 8 < 8 := by omega
        simp [h8, hp, h8', a, BitVec.getLsbD_of_ge sr j (by omega)]
  · simp [hp]

/-- A supervisor write stores the value whole (R26). -/
theorem maskedWrite_supervisor {sr : Word} (h : srP sr = false) (v : Word) : maskedWrite sr v = v := by
  simp [maskedWrite, h]

/-- The saved copy, bit by bit (R158 steps 1 and 2). -/
theorem getLsbD_savedSr (sr : Word) (j : Nat) : (savedSr sr).getLsbD j = if j = 12 then false else sr.getLsbD j :=
  getLsbD_setBit (by decide) _ _ _

/-- The status word in a handler, bit by bit (R158). -/
theorem getLsbD_handlerSr (p : Params) (k : TrapKind) (sr : Word) (j : Nat) :
    (handlerSr p k sr).getLsbD j =
      if j = 9 then (entryMask p k (srMask sr)).getLsbD 0
      else if j = 10 then (entryMask p k (srMask sr)).getLsbD 1
      else if j = 11 then (entryMask p k (srMask sr)).getLsbD 2
      else if j = 8 ∨ j = 12 ∨ j = 15 then false
      else sr.getLsbD j := by
  unfold handlerSr
  rw [getLsbD_setMask, getLsbD_setBit (by decide), getLsbD_setBit (by decide), getLsbD_savedSr]
  by_cases h8 : j = 8
  · simp [h8]
  by_cases h12 : j = 12
  · simp [h12]
  by_cases h15 : j = 15
  · simp [h15]
  simp [h8, h12, h15]

theorem turnsOn_iff {bit : Word → Bool} {old new : Word} :
    turnsOn bit old new = true ↔ bit old = false ∧ bit new = true := by
  unfold turnsOn; cases bit old <;> cases bit new <;> decide

/-- A change of `sr` that turns on W or H is refused by that name (R29). -/
theorem srWriteRefusal_wh {p : Params} {old new : Word}
    (h : (srW old = false ∧ srW new = true) ∨ (srH old = false ∧ srH new = true)) :
    srWriteRefusal p old new = some .srWriteSetsWOrH := by
  simp only [← turnsOn_iff, ← Bool.or_eq_true] at h
  exact if_pos h

/-- A change of `sr` that turns on T without `HAS_TRACE`, and neither W nor H, is refused by that name (R153). -/
theorem srWriteRefusal_trace {p : Params} {old new : Word}
    (h : ¬((srW old = false ∧ srW new = true) ∨ (srH old = false ∧ srH new = true)))
    (ht : srT old = false ∧ srT new = true) (hp : p.hasTrace = false) :
    srWriteRefusal p old new = some .traceNotImplemented := by
  simp only [← turnsOn_iff, ← Bool.or_eq_true] at h ht
  exact (if_neg h).trans (if_pos (by simp [ht, hp]))

/-- A change of `sr` is accepted exactly if it turns on neither W, nor H, nor, without `HAS_TRACE`, T (R29, R153). -/
theorem srWriteRefusal_none_iff {p : Params} {old new : Word} :
    srWriteRefusal p old new = none ↔
      (srW new = true → srW old = true) ∧ (srH new = true → srH old = true) ∧
        (srT new = true → srT old = true ∨ p.hasTrace = true) := by
  by_cases h : (srW old = false ∧ srW new = true) ∨ (srH old = false ∧ srH new = true)
  · rw [srWriteRefusal_wh h]
    simp only [reduceCtorEq, false_iff]
    rintro ⟨h1, h2, -⟩
    rcases h with ⟨e1, e2⟩ | ⟨e1, e2⟩
    · rw [h1 e2] at e1; cases e1
    · rw [h2 e2] at e1; cases e1
  · by_cases ht : (srT old = false ∧ srT new = true) ∧ p.hasTrace = false
    · rw [srWriteRefusal_trace h ht.1 ht.2]
      simp only [reduceCtorEq, false_iff]
      rintro ⟨-, -, h3⟩
      rcases h3 ht.1.2 with e | e
      · rw [ht.1.1] at e; cases e
      · rw [ht.2] at e; cases e
    · have hn : srWriteRefusal p old new = none := by
        have h' := h; have ht' := ht
        simp only [← turnsOn_iff, ← Bool.or_eq_true] at h' ht'
        exact (if_neg h').trans (if_neg (by simpa using ht'))
      rw [hn]
      simp only [true_iff]
      push Not at h ht
      refine ⟨fun e => ?_, fun e => ?_, fun e => ?_⟩
      · by_contra c; exact absurd e (h.1 (by simpa using c))
      · by_contra c; exact absurd e (h.2 (by simpa using c))
      · by_contra c
        push Not at c
        exact absurd (ht ⟨by simpa using c.1, e⟩) (by simpa using c.2)

/-- An accepted change of `sr` turns on neither W, nor H, nor, without `HAS_TRACE`, T (R29, R153). -/
theorem srWriteRefusal_none {p : Params} {old new : Word} (h : srWriteRefusal p old new = none) :
    (srW new = true → srW old = true) ∧ (srH new = true → srH old = true) ∧
      (srT new = true → srT old = true ∨ p.hasTrace = true) :=
  srWriteRefusal_none_iff.mp h

/-- A write of `sr` that is not refused stores the masked value, and nothing R29 and R153 forbid is turned on. -/
theorem writeSr_ok {p : Params} {sr v new : Word} (h : writeSr p sr v = .ok new) :
    new = maskedWrite sr v ∧ srWriteRefusal p sr new = none := by
  unfold writeSr at h
  split at h
  · cases h
  · next e => cases h; exact ⟨rfl, e⟩

/-- A protected-mode write of `sr` is never refused (R26: the upper byte is not reached). -/
theorem writeSr_protected (p : Params) {sr : Word} (h : srP sr = true) (v : Word) :
    writeSr p sr v = .ok (maskedWrite sr v) := by
  have hb : ∀ j, 8 ≤ j → (maskedWrite sr v).getLsbD j = sr.getLsbD j := fun j hj => by
    rw [getLsbD_maskedWrite]; simp [h, hj]
  have hw : srW (maskedWrite sr v) = srW sr := hb 12 (by decide)
  have hh : srH (maskedWrite sr v) = srH sr := hb 13 (by decide)
  have ht : srT (maskedWrite sr v) = srT sr := hb 15 (by decide)
  simp [writeSr, srWriteRefusal, turnsOn, hw, hh, ht]

/-- The four-bit value of the flags a four-bit value writes (R102). -/
@[simp] theorem nibble_ofNibble (b : BitVec 4) : (Flags.ofNibble b).nibble = b := by
  revert b
  decide

/-! ### The mode bits after the updates of `sr` -/

@[simp] theorem srH_savedSr (sr : Word) : srH (savedSr sr) = srH sr := getLsbD_savedSr sr 13
@[simp] theorem srW_savedSr (sr : Word) : srW (savedSr sr) = false := getLsbD_savedSr sr 12
@[simp] theorem srP_savedSr (sr : Word) : srP (savedSr sr) = srP sr := getLsbD_savedSr sr 8

@[simp] theorem srH_handlerSr (p : Params) (k : TrapKind) (sr : Word) : srH (handlerSr p k sr) = srH sr :=
  getLsbD_handlerSr p k sr 13
@[simp] theorem srP_handlerSr (p : Params) (k : TrapKind) (sr : Word) : srP (handlerSr p k sr) = false :=
  getLsbD_handlerSr p k sr 8

@[simp] theorem srH_resetSr (p : Params) : srH (resetSr p) = false := getLsbD_setBit (by decide) p.resetSr false 13

@[simp] theorem srP_setW (sr : Word) (b : Bool) : srP (setBit sr 12 b) = srP sr := getLsbD_setBit (by decide) sr b 8
@[simp] theorem srP_setH (sr : Word) (b : Bool) : srP (setBit sr 13 b) = srP sr := getLsbD_setBit (by decide) sr b 8
@[simp] theorem srH_setW (sr : Word) (b : Bool) : srH (setBit sr 12 b) = srH sr := getLsbD_setBit (by decide) sr b 13
@[simp] theorem srH_setH (sr : Word) (b : Bool) : srH (setBit sr 13 b) = b := getLsbD_setBit (by decide) sr b 13
@[simp] theorem srW_setW (sr : Word) (b : Bool) : srW (setBit sr 12 b) = b := getLsbD_setBit (by decide) sr b 12
@[simp] theorem srW_setH (sr : Word) (b : Bool) : srW (setBit sr 13 b) = srW sr := getLsbD_setBit (by decide) sr b 12

end Sys2Proof.Machine
end

