-- ==== Sys2Proof/Laws/Decode.lean ====
section
/-! SUPPORT. What the parts of the decoder do with the texts the encoder writes: tokens, registers, immediates, operand lists, and a
line of a mnemonic and its operands. -/

namespace Sys2Proof

/-! ### Tokens -/

/-- A character of a token: no white space, no comma, no `;` and no `|`. -/
def isTokenChar (b : Byte) : Bool := !isSpace b && b != ascii ',' && b != ascii ';' && b != ascii '|'

/-- A token: a non-empty text of token characters. -/
def isToken (t : Text) : Bool := !t.isEmpty && t.all isTokenChar

/-- A text with no white space at either end, and not empty. -/
def isTrimmed (t : Text) : Bool := !t.isEmpty && !(t.head?.any isSpace) && !(t.getLast?.any isSpace)

theorem dropWhile_isSpace_of_head {t : Text} (h : t.head?.any isSpace = false) : t.dropWhile isSpace = t := by
  cases t with
  | nil => rfl
  | cons b bs => simp only [List.head?_cons, Option.any_some] at h; simp [h]

/-- A text that starts and ends with no white space is its own trimming. -/
theorem trim_of_ends {t : Text} (h1 : t.head?.any isSpace = false) (h2 : t.getLast?.any isSpace = false) : trim t = t := by
  unfold trim
  rw [dropWhile_isSpace_of_head h1, dropWhile_isSpace_of_head (by rwa [List.head?_reverse]), List.reverse_reverse]

theorem isTrimmed_iff {t : Text} :
    isTrimmed t = true ↔ t ≠ [] ∧ t.head?.any isSpace = false ∧ t.getLast?.any isSpace = false := by
  simp [isTrimmed, and_assoc]

theorem trim_trimmed {t : Text} (h : isTrimmed t = true) : trim t = t :=
  trim_of_ends (isTrimmed_iff.mp h).2.1 (isTrimmed_iff.mp h).2.2

theorem dropWhile_space_cons (t : Text) : (ascii ' ' :: t).dropWhile isSpace = t.dropWhile isSpace := rfl

/-- White space before a text is dropped by trimming. -/
theorem trim_space_cons (t : Text) : trim (ascii ' ' :: t) = trim t := by
  unfold trim
  rw [dropWhile_space_cons]

theorem token_char {t : Text} (h : isToken t = true) {b : Byte} (hb : b ∈ t) : isTokenChar b = true := by
  simp only [isToken, Bool.and_eq_true, List.all_eq_true] at h
  exact h.2 b hb

theorem token_ne_nil {t : Text} (h : isToken t = true) : t ≠ [] := by
  intro e
  simp [isToken, e] at h

theorem tokenChar_facts {b : Byte} (h : isTokenChar b = true) :
    isSpace b = false ∧ b ≠ ascii ',' ∧ b ≠ ascii ';' ∧ b ≠ ascii '|' := by
  simp only [isTokenChar, Bool.and_eq_true, Bool.not_eq_true', bne_iff_ne, ne_eq] at h
  exact ⟨h.1.1.1, h.1.1.2, h.1.2, h.2⟩

theorem token_trimmed {t : Text} (h : isToken t = true) : isTrimmed t = true := by
  refine isTrimmed_iff.mpr ⟨token_ne_nil h, ?_, ?_⟩
  · cases hh : t.head? with
    | none => rfl
    | some b => exact (tokenChar_facts (token_char h (List.mem_of_mem_head? hh))).1
  · cases hh : t.getLast? with
    | none => rfl
    | some b => exact (tokenChar_facts (token_char h (List.mem_of_mem_getLast? hh))).1

theorem reg_isToken (r : Reg) : isToken r.text = true := by
  cases r with
  | sr => decide
  | file g => cases g <;> decide

theorem mnemonic_isToken (m : Mnemonic) : isToken m.text = true := by cases m <;> decide

theorem cond_isToken {c : Cond} {t : Text} (h : c.text = some t) : isToken t = true := by
  cases c <;> simp only [Cond.text, Option.some.injEq, reduceCtorEq] at h <;> subst h <;> decide

theorem hexChar_isTokenChar {n : Nat} (h : n < 16) : isTokenChar (hexChar n) = true := by
  have : ∀ k : Fin 16, isTokenChar (hexChar k) = true := by decide
  exact this ⟨n, h⟩

theorem encodeImm_isToken (v : Word) : isToken (encodeImm v) = true := by
  have h := v.isLt
  have h1 := hexChar_isTokenChar (n := v.toNat / 4096) (by omega)
  have h2 := hexChar_isTokenChar (n := v.toNat / 256 % 16) (by omega)
  have h3 := hexChar_isTokenChar (n := v.toNat / 16 % 16) (by omega)
  have h4 := hexChar_isTokenChar (n := v.toNat % 16) (by omega)
  have h5 : (chars ['#', '0', 'x']).all isTokenChar = true := by decide
  simp only [isToken, encodeImm, List.all_append, List.all_cons, List.all_nil, h1, h2, h3, h4, h5]
  rfl

/-! ### Registers, conditions, mnemonics, immediates -/

@[simp] theorem parseReg_text (r : Reg) : parseReg r.text = some r := by
  cases r with
  | sr => decide
  | file g => cases g <;> decide

@[simp] theorem regOperand_text (r : Reg) : regOperand r.text = .ok r := by simp [regOperand]

@[simp] theorem parseMnemonic_text (m : Mnemonic) : parseMnemonic m.text = some m := by cases m <;> decide

theorem parseCond_text {c : Cond} {t : Text} (h : c.text = some t) : parseCond t = some c := by
  cases c <;> simp only [Cond.text, Option.some.injEq, reduceCtorEq] at h <;> subst h <;> decide

/-- A condition the decoder reads has a spelling. -/
theorem parseCond_spelled {t : Text} {c : Cond} (h : parseCond t = some c) : c.text.isSome = true := by
  have := List.mem_of_find?_eq_some h
  revert this
  cases c <;> decide

theorem hexDigit_hexChar {n : Nat} (h : n < 16) : hexDigit (hexChar n) = some n := by
  have : ∀ k : Fin 16, hexDigit (hexChar k) = some k.val := by decide
  exact this ⟨n, h⟩

@[simp] theorem parseImm_encodeImm (v : Word) : parseImm (encodeImm v) = some v := by
  have h := v.isLt
  have e : parseNumber (encodeImm v).tail = some v.toNat := by
    show (if (([hexChar (v.toNat / 4096), hexChar (v.toNat / 256 % 16), hexChar (v.toNat / 16 % 16),
      hexChar (v.toNat % 16)] : Text)).isEmpty then none else _) = _
    simp only [List.isEmpty_cons, Bool.false_eq_true, if_false]
    show parseDigits 16 hexDigit 0 [hexChar (v.toNat / 4096), hexChar (v.toNat / 256 % 16), hexChar (v.toNat / 16 % 16),
      hexChar (v.toNat % 16)] = _
    simp only [parseDigits, hexDigit_hexChar (show v.toNat / 4096 < 16 by omega),
      hexDigit_hexChar (show v.toNat / 256 % 16 < 16 by omega), hexDigit_hexChar (show v.toNat / 16 % 16 < 16 by omega),
      hexDigit_hexChar (show v.toNat % 16 < 16 by omega), Option.some.injEq]
    omega
  have hd : ((encodeImm v).head? == some (ascii '#')) = true := rfl
  simp only [parseImm, hd, if_true, e, h]
  simp

@[simp] theorem immOperand_encodeImm (v : Word) : immOperand (encodeImm v) = .ok v := by simp [immOperand]

@[simp] theorem looksImmediate_encodeImm (v : Word) : looksImmediate (encodeImm v) = true := rfl

@[simp] theorem looksImmediate_reg (r : Reg) : looksImmediate r.text = false := by
  cases r with
  | sr => decide
  | file g => cases g <;> decide

/-! ### Operand lists -/

theorem splitAll_append {sep : Byte} {a : Text} (h : ∀ b ∈ a, b ≠ sep) (t : Text) :
    splitAll sep (a ++ sep :: t) = a :: splitAll sep t := by
  induction a with
  | nil => simp [splitAll]
  | cons x xs ih =>
    have hx : (x == sep) = false := by simpa using h x List.mem_cons_self
    simp [splitAll, hx, ih fun b hb => h b (List.mem_cons_of_mem _ hb)]

theorem splitAll_none {sep : Byte} {a : Text} (h : ∀ b ∈ a, b ≠ sep) : splitAll sep a = [a] := by
  induction a with
  | nil => rfl
  | cons x xs ih =>
    have hx : (x == sep) = false := by simpa using h x List.mem_cons_self
    simp [splitAll, hx, ih fun b hb => h b (List.mem_cons_of_mem _ hb)]

theorem splitFirst_append {sep : Byte} {a : Text} (h : ∀ b ∈ a, b ≠ sep) (t : Text) :
    splitFirst sep (a ++ sep :: t) = (a, some t) := by
  induction a with
  | nil => simp [splitFirst]
  | cons x xs ih =>
    have hx : (x == sep) = false := by simpa using h x List.mem_cons_self
    simp [splitFirst, hx, ih fun b hb => h b (List.mem_cons_of_mem _ hb)]

theorem splitFirst_none {sep : Byte} {a : Text} (h : ∀ b ∈ a, b ≠ sep) : splitFirst sep a = (a, none) := by
  induction a with
  | nil => rfl
  | cons x xs ih =>
    have hx : (x == sep) = false := by simpa using h x List.mem_cons_self
    simp [splitFirst, hx, ih fun b hb => h b (List.mem_cons_of_mem _ hb)]

theorem token_no_comma {t : Text} (h : isToken t = true) : ∀ b ∈ t, b ≠ ascii ',' := fun _ hb =>
  (tokenChar_facts (token_char h hb)).2.1

/-- The operands of two tokens written with a comma and a space. -/
theorem operandTexts_two {a b : Text} (ha : isToken a = true) (hb : isToken b = true) :
    operandTexts (joinOperands [a, b]) = [a, b] := by
  have hs : ∀ x ∈ ascii ' ' :: b, x ≠ ascii ',' := by
    intro x hx
    rcases List.mem_cons.mp hx with rfl | hx
    · decide
    · exact token_no_comma hb x hx
  show List.map trim (splitAll (ascii ',') ((a ++ [ascii ',', ascii ' ']) ++ b)) = _
  rw [show (a ++ [ascii ',', ascii ' ']) ++ b = a ++ ascii ',' :: ascii ' ' :: b by simp,
    splitAll_append (token_no_comma ha), splitAll_none hs]
  simp [trim_space_cons, trim_trimmed (token_trimmed ha), trim_trimmed (token_trimmed hb)]

/-- The operands of three tokens written with commas and spaces. -/
theorem operandTexts_three {a b c : Text} (ha : isToken a = true) (hb : isToken b = true) (hc : isToken c = true) :
    operandTexts (joinOperands [a, b, c]) = [a, b, c] := by
  have hs : ∀ t, isToken t = true → ∀ x ∈ ascii ' ' :: t, x ≠ ascii ',' := by
    intro t ht x hx
    rcases List.mem_cons.mp hx with rfl | hx
    · decide
    · exact token_no_comma ht x hx
  show List.map trim (splitAll (ascii ',') ((a ++ [ascii ',', ascii ' ']) ++ ((b ++ [ascii ',', ascii ' ']) ++ c))) = _
  rw [show (a ++ [ascii ',', ascii ' ']) ++ ((b ++ [ascii ',', ascii ' ']) ++ c) =
      a ++ ascii ',' :: ((ascii ' ' :: b) ++ ascii ',' :: ascii ' ' :: c) by simp,
    splitAll_append (token_no_comma ha), splitAll_append (hs b hb), splitAll_none (hs c hc)]
  simp [trim_space_cons, trim_trimmed (token_trimmed ha), trim_trimmed (token_trimmed hb),
    trim_trimmed (token_trimmed hc)]

/-- The operands of a writing instruction are read back (R68). -/
@[simp] theorem parseWriteOps_encode (o : WriteOps) : parseWriteOps (encodeWriteOps o) = .ok o := by
  cases o with
  | s1 rd v =>
    simp only [parseWriteOps, encodeWriteOps, operandTexts_two (reg_isToken rd) (encodeImm_isToken v)]
    simp [bind, Except.bind, pure, Except.pure]
  | s2 rd rs v =>
    simp only [parseWriteOps, encodeWriteOps,
      operandTexts_three (reg_isToken rd) (reg_isToken rs) (encodeImm_isToken v)]
    simp [bind, Except.bind, pure, Except.pure]
  | s3 rd ra rb =>
    simp only [parseWriteOps, encodeWriteOps, operandTexts_three (reg_isToken rd) (reg_isToken ra) (reg_isToken rb)]
    simp [bind, Except.bind, pure, Except.pure]

/-- The operands of a compare or test instruction are read back (R68). -/
@[simp] theorem parseTestOps_encode (o : TestOps) : parseTestOps (encodeTestOps o) = .ok o := by
  cases o with
  | s1 ra v =>
    simp only [parseTestOps, encodeTestOps, operandTexts_two (reg_isToken ra) (encodeImm_isToken v)]
    simp [bind, Except.bind, pure, Except.pure]
  | s4 ra rb =>
    simp only [parseTestOps, encodeTestOps, operandTexts_two (reg_isToken ra) (reg_isToken rb)]
    simp [bind, Except.bind, pure, Except.pure]

theorem addrOperand_facts {a : AddrOperand} (h : addrOperandWf a = true) :
    isTrimmed a = true ∧ ∀ b ∈ a, b ≠ ascii ';' := by
  simp only [addrOperandWf, Bool.and_eq_true, List.all_eq_true, bne_iff_ne, ne_eq] at h
  exact ⟨by simp only [isTrimmed, Bool.and_eq_true]; exact ⟨⟨h.1.1.1, h.1.2⟩, h.2⟩, h.1.1.2⟩

/-- The operands of a load are read back (R110). -/
theorem parseLoadOps_encode (r : Reg) {a : AddrOperand} (h : addrOperandWf a = true) :
    parseLoadOps (joinOperands [r.text, a]) = .ok (r, a) := by
  have ht := (addrOperand_facts h).1
  have hne : a ≠ [] := (isTrimmed_iff.mp ht).1
  have e : joinOperands [r.text, a] = r.text ++ ascii ',' :: ascii ' ' :: a := by
    show (r.text ++ [ascii ',', ascii ' ']) ++ a = _
    simp
  unfold parseLoadOps
  rw [e, splitFirst_append (token_no_comma (reg_isToken r))]
  simp [trim_space_cons, trim_trimmed ht, trim_trimmed (token_trimmed (reg_isToken r)), bind, Except.bind, pure,
    Except.pure, hne]

/-- A text that may stand as the operands of a line: trimmed, and without `;`. -/
def isOperandText (t : Text) : Prop := isTrimmed t = true ∧ ∀ b ∈ t, b ≠ ascii ';'

theorem token_isOperandText {t : Text} (h : isToken t = true) : isOperandText t :=
  ⟨token_trimmed h, fun _ hb => (tokenChar_facts (token_char h hb)).2.2.1⟩

theorem joinTwo_isOperandText {t u : Text} (ht : isOperandText t) (hu : isOperandText u) :
    isOperandText (t ++ chars [',', ' '] ++ u) := by
  have h1 := isTrimmed_iff.mp ht.1
  have h2 := isTrimmed_iff.mp hu.1
  have e : t ++ chars [',', ' '] ++ u = t ++ ascii ',' :: ascii ' ' :: u := by
    show (t ++ [ascii ',', ascii ' ']) ++ u = _
    simp
  rw [e]
  refine ⟨isTrimmed_iff.mpr ⟨by simp, ?_, ?_⟩, ?_⟩
  · rw [List.head?_append_of_ne_nil _ h1.1]
    exact h1.2.1
  · rw [List.getLast?_append_of_ne_nil _ (by simp), List.getLast?_cons, List.getLast?_cons]
    cases hl : u.getLast? with
    | none => exact absurd (List.getLast?_eq_none_iff.mp hl) h2.1
    | some b =>
      have := h2.2.2
      rw [hl] at this
      simpa using this
  · intro b hb
    rcases List.mem_append.mp hb with h | h
    · exact ht.2 b h
    · simp only [List.mem_cons] at h
      rcases h with rfl | rfl | h
      · decide
      · decide
      · exact hu.2 b h

theorem encodeWriteOps_isOperandText (o : WriteOps) : isOperandText (encodeWriteOps o) := by
  have hr := fun r => token_isOperandText (reg_isToken r)
  have hi := fun v => token_isOperandText (encodeImm_isToken v)
  cases o with
  | s1 rd v => exact joinTwo_isOperandText (hr rd) (hi v)
  | s2 rd rs v => exact joinTwo_isOperandText (hr rd) (joinTwo_isOperandText (hr rs) (hi v))
  | s3 rd ra rb => exact joinTwo_isOperandText (hr rd) (joinTwo_isOperandText (hr ra) (hr rb))

theorem encodeTestOps_isOperandText (o : TestOps) : isOperandText (encodeTestOps o) := by
  have hr := fun r => token_isOperandText (reg_isToken r)
  cases o with
  | s1 ra v => exact joinTwo_isOperandText (hr ra) (token_isOperandText (encodeImm_isToken v))
  | s4 ra rb => exact joinTwo_isOperandText (hr ra) (hr rb)

theorem loadOps_isOperandText (r : Reg) {a : AddrOperand} (h : addrOperandWf a = true) :
    isOperandText (joinOperands [r.text, a]) :=
  joinTwo_isOperandText (token_isOperandText (reg_isToken r)) (addrOperand_facts h)

/-! ### A line -/

theorem cutComment_eq {t : Text} (h : ∀ b ∈ t, b ≠ ascii ';') : cutComment t = t := by
  unfold cutComment
  rw [List.takeWhile_eq_self_iff]
  intro b hb
  simpa using h b hb

theorem takeWhile_word {a : Text} (h : ∀ b ∈ a, isSpace b = false) (t : Text) :
    (a ++ ascii ' ' :: t).takeWhile (fun b => !isSpace b) = a ∧
      (a ++ ascii ' ' :: t).dropWhile (fun b => !isSpace b) = ascii ' ' :: t := by
  induction a with
  | nil => exact ⟨rfl, rfl⟩
  | cons x xs ih =>
    have hx : isSpace x = false := h x List.mem_cons_self
    have := ih fun b hb => h b (List.mem_cons_of_mem _ hb)
    simp [hx, this]

/-- What the decoder makes of a word and the text after it. -/
def decodeWord (word operands : Text) : Except DecodeError Instr :=
  match splitFirst (ascii '|') word with
  | (m, none) =>
    match parseMnemonic m with
    | some mn => decodeOperands mn operands
    | none => .error .unknownMnemonic
  | (m, some cc) =>
    match parseMnemonic m with
    | some .bran => decodeBranch cc operands
    | some _ => .error .suffixNotAdmitted
    | none => .error .unknownMnemonic

/-- A line of a word, a space and a trimmed text without `;`. -/
theorem decode_line {w t : Text} (hw : w ≠ []) (hs : ∀ b ∈ w, isSpace b = false) (hc : ∀ b ∈ w, b ≠ ascii ';')
    (ht : isTrimmed t = true) (htc : ∀ b ∈ t, b ≠ ascii ';') : decode (w ++ ascii ' ' :: t) = decodeWord w t := by
  have htn : t ≠ [] := (isTrimmed_iff.mp ht).1
  have hcut : cutComment (w ++ ascii ' ' :: t) = w ++ ascii ' ' :: t := by
    apply cutComment_eq
    intro b hb
    rcases List.mem_append.mp hb with h | h
    · exact hc b h
    · rcases List.mem_cons.mp h with rfl | h
      · decide
      · exact htc b h
  have htrim : trim (w ++ ascii ' ' :: t) = w ++ ascii ' ' :: t := by
    apply trim_of_ends
    · cases w with
      | nil => exact absurd rfl hw
      | cons x xs => exact hs x List.mem_cons_self
    · rw [List.getLast?_append_of_ne_nil _ (by simp), List.getLast?_cons]
      cases hl : t.getLast? with
      | none => exact absurd (List.getLast?_eq_none_iff.mp hl) htn
      | some b =>
        have := (isTrimmed_iff.mp ht).2.2
        rw [hl] at this
        simpa using this
  have hne : (w ++ ascii ' ' :: t).isEmpty = false := by
    cases w <;> rfl
  simp only [decode, hcut, htrim, hne, (takeWhile_word hs t).1, (takeWhile_word hs t).2, trim_space_cons, trim_trimmed ht]
  rfl

/-- A line of a mnemonic, a space and operands. -/
theorem decode_instrLine (m : Mnemonic) {t : Text} (h : isOperandText t) :
    decode (instrLine m t) = decodeOperands m t := by
  obtain ⟨ht, htc⟩ := h
  have hm := mnemonic_isToken m
  have e : instrLine m t = m.text ++ ascii ' ' :: t := by
    show (m.text ++ [ascii ' ']) ++ t = _
    simp
  rw [e, decode_line (token_ne_nil hm) (fun b hb => (tokenChar_facts (token_char hm hb)).1)
    (fun b hb => (tokenChar_facts (token_char hm hb)).2.2.1) ht htc]
  simp [decodeWord, splitFirst_none fun b hb => (tokenChar_facts (token_char hm hb)).2.2.2]

/-- A line of a conditional branch. -/
theorem decode_branchLine {c : Cond} {s l : Text} (hs : c.text = some s) (hl : labelWf l = true) :
    decode (Mnemonic.bran.text ++ chars ['|'] ++ s ++ chars [' '] ++ l) = .ok (.bran c l) := by
  have hlc : ∀ b ∈ l, isLabelChar b = true := by
    simp only [labelWf, Bool.and_eq_true, List.all_eq_true] at hl
    exact hl.2
  have hln : l ≠ [] := by
    intro e
    simp [labelWf, e] at hl
  have hsp : ∀ b, isLabelChar b = true → isSpace b = false ∧ b ≠ ascii ';' := by decide
  have hlt : isTrimmed l = true := by
    refine isTrimmed_iff.mpr ⟨hln, ?_, ?_⟩
    · cases hh : l.head? with
      | none => rfl
      | some b => exact (hsp b (hlc b (List.mem_of_mem_head? hh))).1
    · cases hh : l.getLast? with
      | none => rfl
      | some b => exact (hsp b (hlc b (List.mem_of_mem_getLast? hh))).1
  have ht := cond_isToken hs
  have hw : ∀ b ∈ Mnemonic.bran.text ++ ascii '|' :: s, isSpace b = false ∧ b ≠ ascii ';' := by
    intro b hb
    rcases List.mem_append.mp hb with h | h
    · have := tokenChar_facts (token_char (mnemonic_isToken .bran) h)
      exact ⟨this.1, this.2.2.1⟩
    · rcases List.mem_cons.mp h with rfl | h
      · decide
      · have := tokenChar_facts (token_char ht h)
        exact ⟨this.1, this.2.2.1⟩
  have e : Mnemonic.bran.text ++ chars ['|'] ++ s ++ chars [' '] ++ l =
      (Mnemonic.bran.text ++ ascii '|' :: s) ++ ascii ' ' :: l := by
    show (Mnemonic.bran.text ++ [ascii '|'] ++ s ++ [ascii ' ']) ++ l = _
    simp
  rw [e, decode_line (by simp) (fun b hb => (hw b hb).1) (fun b hb => (hw b hb).2) hlt fun b hb => (hsp b (hlc b hb)).2]
  have hp : splitFirst (ascii '|') (Mnemonic.bran.text ++ ascii '|' :: s) = (Mnemonic.bran.text, some s) :=
    splitFirst_append (fun b hb => (tokenChar_facts (token_char (mnemonic_isToken .bran) hb)).2.2.2) s
  simp [decodeWord, hp, decodeBranch, parseCond_text hs, hl]

/-! ### What the decoder accepts -/

theorem head_dropWhile (t : Text) : (t.dropWhile isSpace).head?.any isSpace = false := by
  induction t with
  | nil => rfl
  | cons x xs ih => by_cases h : isSpace x = true <;> simp [h, ih]

/-- A trimmed text has white space at neither end. -/
theorem trim_ends (t : Text) : (trim t).head?.any isSpace = false ∧ (trim t).getLast?.any isSpace = false := by
  constructor
  · unfold trim
    rw [List.head?_reverse]
    have hu := head_dropWhile t
    generalize t.dropWhile isSpace = u at *
    have : (u.reverse.dropWhile isSpace).getLast? = none ∨ (u.reverse.dropWhile isSpace).getLast? = u.reverse.getLast? := by
      have hs : u.reverse.dropWhile isSpace <:+ u.reverse := List.dropWhile_suffix _
      obtain ⟨p, hp⟩ := hs
      by_cases he : u.reverse.dropWhile isSpace = []
      · left; simp [he]
      · right; conv => rhs; rw [← hp]
        rw [List.getLast?_append_of_ne_nil _ he]
    rcases this with e | e
    · rw [e]; rfl
    · rw [e, List.getLast?_reverse]; exact hu
  · unfold trim
    rw [List.getLast?_reverse]; exact head_dropWhile _

/-- Trimming adds no character. -/
theorem mem_trim {t : Text} {b : Byte} (h : b ∈ trim t) : b ∈ t := by
  unfold trim at h
  rw [List.mem_reverse] at h
  have h := (List.dropWhile_sublist isSpace).subset h
  rw [List.mem_reverse] at h
  exact (List.dropWhile_sublist isSpace).subset h

/-- The text after the first separator is part of the text. -/
theorem mem_splitFirst {sep : Byte} {t : Text} {d a : Text} (h : splitFirst sep t = (d, some a)) : ∀ b ∈ a, b ∈ t := by
  induction t generalizing d a with
  | nil => simp [splitFirst] at h
  | cons x xs ih =>
    simp only [splitFirst] at h
    split at h
    · simp at h; obtain ⟨-, rfl⟩ := h; intro b hb; exact List.mem_cons_of_mem _ hb
    · simp only [Prod.mk.injEq] at h
      have := ih (d := (splitFirst sep xs).1) (a := a) (by rw [← h.2])
      intro b hb; exact List.mem_cons_of_mem _ (this b hb)

end Sys2Proof
end

