-- ==== Sys2Proof/Laws/Regs.lean ====
section
/-! SUPPORT. Register file laws: a read after a write of the same register gives the value, of another leaves it alone. -/

namespace Sys2Proof.Machine

@[simp] theorem RegFile.get_set_same (f : RegFile) (g : FileReg) (v : Word) : (f.set g v).get g = v := by
  cases g <;> rfl

theorem RegFile.get_set_ne (f : RegFile) {g h : FileReg} (hne : h ≠ g) (v : Word) : (f.set g v).get h = f.get h := by
  cases g <;> cases h <;> first | rfl | exact absurd rfl hne

theorem RegFile.get_set (f : RegFile) (g h : FileReg) (v : Word) :
    (f.set g v).get h = if h = g then v else f.get h := by
  split
  · next e => subst e; simp
  · next e => exact RegFile.get_set_ne f e v

/-- What keeping the high members leaves: the old high members, every other register of the new file (R18, R57). -/
theorem RegFile.get_keepHigh (old new : RegFile) (g : FileReg) :
    (old.keepHigh new).get g = if isHighFile g then old.get g else new.get g := by
  cases g <;> rfl

@[simp] theorem isHighFile_pairHigh (p : AddrPair) : isHighFile (pairHigh p) = true := by cases p <;> rfl

@[simp] theorem isHighFile_pairLow (p : AddrPair) : isHighFile (pairLow p) = false := by cases p <;> rfl

/-- Two register files are equal when every register is. -/
theorem RegFile.ext_get {f f' : RegFile} (h : ∀ g, f.get g = f'.get g) : f = f' := by
  cases f; cases f'
  simp only [RegFile.mk.injEq]
  exact ⟨h .r1, h .r2, h .r3, h .r4, h .r5, h .r6, h .r7, h .lh, h .ll, h .ah, h .al, h .sh, h .sl, h .ph, h .pl⟩

/-- Everything an operand write can do (R26, R29, R32): it replaces one register of the file, or `sr` by the masked write. -/
theorem writeReg_ok {r : Reg} {v : Word} {s t : State} (h : writeReg r v s = .ok t) :
    (∃ g, r = .file g ∧ t = { s with regs := s.regs.set g v }) ∨
      (r = .sr ∧ writeSr s.params s.sr v = .ok (maskedWrite s.sr v) ∧ t = { s with sr := maskedWrite s.sr v }) := by
  cases r with
  | file g => simp only [writeReg, Except.ok.injEq] at h; exact .inl ⟨g, rfl, h.symm⟩
  | sr =>
    simp only [writeReg] at h
    split at h
    · next new e =>
      cases h
      have he : new = maskedWrite s.sr v := by
        unfold writeSr at e; split at e
        · cases e
        · cases e; rfl
      subst he
      exact .inr ⟨rfl, e, rfl⟩
    · cases h

end Sys2Proof.Machine
end

