-- ==== Sys2Proof/Laws/State.lean ====
section
/-! SUPPORT. What each named update of the state leaves in each field, true by rfl; no later proof unfolds a record update. -/

namespace Sys2Proof.Machine

/-! ### countDraws -/

@[simp] theorem countDraws_sr (s : State) : (countDraws s).sr = s.sr := rfl
@[simp] theorem countDraws_regs (s : State) : (countDraws s).regs = s.regs := rfl
@[simp] theorem countDraws_pc (s : State) : (countDraws s).pc = s.pc := rfl
@[simp] theorem countDraws_saved (s : State) : (countDraws s).saved = s.saved := rfl
@[simp] theorem countDraws_pending (s : State) : (countDraws s).pending = s.pending := rfl
@[simp] theorem countDraws_traceDue (s : State) : (countDraws s).traceDue = s.traceDue := rfl
@[simp] theorem countDraws_waitAt (s : State) : (countDraws s).waitAt = s.waitAt := rfl
@[simp] theorem countDraws_mem (s : State) : (countDraws s).mem = s.mem := rfl
@[simp] theorem countDraws_text (s : State) : (countDraws s).text = s.text := rfl
@[simp] theorem countDraws_labels (s : State) : (countDraws s).labels = s.labels := rfl
@[simp] theorem countDraws_env (s : State) : (countDraws s).env = s.env := rfl
@[simp] theorem countDraws_draws (s : State) : (countDraws s).draws = s.draws + 2 := rfl
@[simp] theorem countDraws_params (s : State) : (countDraws s).params = s.params := rfl

/-! ### resetCpu -/

@[simp] theorem resetCpu_sr (s : State) : (resetCpu s).sr = resetSr s.params := rfl
@[simp] theorem resetCpu_regs (s : State) : (resetCpu s).regs = RegFile.reset := rfl
@[simp] theorem resetCpu_pc (s : State) : (resetCpu s).pc = s.params.resetEntry := rfl
@[simp] theorem resetCpu_saved (s : State) : (resetCpu s).saved = none := rfl
@[simp] theorem resetCpu_pending (s : State) : (resetCpu s).pending = s.pending := rfl
@[simp] theorem resetCpu_traceDue (s : State) : (resetCpu s).traceDue = false := rfl
@[simp] theorem resetCpu_waitAt (s : State) : (resetCpu s).waitAt = none := rfl
@[simp] theorem resetCpu_mem (s : State) : (resetCpu s).mem = s.mem := rfl
@[simp] theorem resetCpu_text (s : State) : (resetCpu s).text = s.text := rfl
@[simp] theorem resetCpu_labels (s : State) : (resetCpu s).labels = s.labels := rfl
@[simp] theorem resetCpu_env (s : State) : (resetCpu s).env = s.env := rfl
@[simp] theorem resetCpu_draws (s : State) : (resetCpu s).draws = s.draws := rfl
@[simp] theorem resetCpu_params (s : State) : (resetCpu s).params = s.params := rfl

/-! ### withdrawRequest -/

@[simp] theorem withdrawRequest_sr (q : Priority) (s : State) : (withdrawRequest q s).sr = s.sr := rfl
@[simp] theorem withdrawRequest_regs (q : Priority) (s : State) : (withdrawRequest q s).regs = s.regs := rfl
@[simp] theorem withdrawRequest_pc (q : Priority) (s : State) : (withdrawRequest q s).pc = s.pc := rfl
@[simp] theorem withdrawRequest_saved (q : Priority) (s : State) : (withdrawRequest q s).saved = s.saved := rfl
@[simp] theorem withdrawRequest_pending (q : Priority) (s : State) : (withdrawRequest q s).pending = s.pending.erase q := rfl
@[simp] theorem withdrawRequest_traceDue (q : Priority) (s : State) : (withdrawRequest q s).traceDue = s.traceDue := rfl
@[simp] theorem withdrawRequest_waitAt (q : Priority) (s : State) : (withdrawRequest q s).waitAt = s.waitAt := rfl
@[simp] theorem withdrawRequest_mem (q : Priority) (s : State) : (withdrawRequest q s).mem = s.mem := rfl
@[simp] theorem withdrawRequest_text (q : Priority) (s : State) : (withdrawRequest q s).text = s.text := rfl
@[simp] theorem withdrawRequest_labels (q : Priority) (s : State) : (withdrawRequest q s).labels = s.labels := rfl
@[simp] theorem withdrawRequest_env (q : Priority) (s : State) : (withdrawRequest q s).env = s.env := rfl
@[simp] theorem withdrawRequest_draws (q : Priority) (s : State) : (withdrawRequest q s).draws = s.draws := rfl
@[simp] theorem withdrawRequest_params (q : Priority) (s : State) : (withdrawRequest q s).params = s.params := rfl

/-! ### raiseRequest: only `pending` can change -/

theorem raiseRequest_eq (q : Priority) (s : State) :
    raiseRequest q s = { s with pending := (raiseRequest q s).pending } := by
  unfold raiseRequest; split <;> rfl

@[simp] theorem raiseRequest_sr (q : Priority) (s : State) : (raiseRequest q s).sr = s.sr := by rw [raiseRequest_eq]
@[simp] theorem raiseRequest_regs (q : Priority) (s : State) : (raiseRequest q s).regs = s.regs := by rw [raiseRequest_eq]
@[simp] theorem raiseRequest_pc (q : Priority) (s : State) : (raiseRequest q s).pc = s.pc := by rw [raiseRequest_eq]
@[simp] theorem raiseRequest_saved (q : Priority) (s : State) : (raiseRequest q s).saved = s.saved := by rw [raiseRequest_eq]
@[simp] theorem raiseRequest_traceDue (q : Priority) (s : State) : (raiseRequest q s).traceDue = s.traceDue := by
  rw [raiseRequest_eq]
@[simp] theorem raiseRequest_mem (q : Priority) (s : State) : (raiseRequest q s).mem = s.mem := by rw [raiseRequest_eq]
@[simp] theorem raiseRequest_waitAt (q : Priority) (s : State) : (raiseRequest q s).waitAt = s.waitAt := by
  rw [raiseRequest_eq]
@[simp] theorem raiseRequest_text (q : Priority) (s : State) : (raiseRequest q s).text = s.text := by rw [raiseRequest_eq]
@[simp] theorem raiseRequest_labels (q : Priority) (s : State) : (raiseRequest q s).labels = s.labels := by
  rw [raiseRequest_eq]
@[simp] theorem raiseRequest_env (q : Priority) (s : State) : (raiseRequest q s).env = s.env := by rw [raiseRequest_eq]
@[simp] theorem raiseRequest_draws (q : Priority) (s : State) : (raiseRequest q s).draws = s.draws := by rw [raiseRequest_eq]
@[simp] theorem raiseRequest_params (q : Priority) (s : State) : (raiseRequest q s).params = s.params := by
  rw [raiseRequest_eq]

/-! ### placeLine (withFetchWord) -/

@[simp] theorem placeLine_text (s : State) (l : Line) : (placeLine s l).text = setLine s.text s.pc l := rfl
@[simp] theorem placeLine_sr (s : State) (l : Line) : (placeLine s l).sr = setBit (setBit s.sr 12 false) 13 false := rfl
@[simp] theorem placeLine_pc (s : State) (l : Line) : (placeLine s l).pc = s.pc := rfl
@[simp] theorem placeLine_regs (s : State) (l : Line) : (placeLine s l).regs = s.regs := rfl
@[simp] theorem placeLine_saved (s : State) (l : Line) : (placeLine s l).saved = s.saved := rfl
@[simp] theorem placeLine_pending (s : State) (l : Line) : (placeLine s l).pending = s.pending := rfl
@[simp] theorem placeLine_traceDue (s : State) (l : Line) : (placeLine s l).traceDue = false := rfl
@[simp] theorem placeLine_waitAt (s : State) (l : Line) : (placeLine s l).waitAt = none := rfl
@[simp] theorem placeLine_mem (s : State) (l : Line) : (placeLine s l).mem = s.mem := rfl
@[simp] theorem placeLine_labels (s : State) (l : Line) : (placeLine s l).labels = s.labels := rfl
@[simp] theorem placeLine_env (s : State) (l : Line) : (placeLine s l).env = [] := rfl
@[simp] theorem placeLine_draws (s : State) (l : Line) : (placeLine s l).draws = s.draws := rfl
@[simp] theorem placeLine_params (s : State) (l : Line) : (placeLine s l).params = s.params := rfl

/-- The line placed is the one found at its place. -/
theorem setLine_get (t : List Line) (n : Nat) (l : Line) : (setLine t n l)[n]? = some l := by
  induction t, n, l using setLine.induct <;> simp_all [setLine]

end Sys2Proof.Machine
end

