-- ==== Sys2Proof/Laws/Exec.lean ====
section
/-! SUPPORT. What each shared operation can do, said once: trap entry and return, completion, the ALU template, the loads. The provers
cite these lemmas and unfold no meaning. -/

namespace Sys2Proof.Machine

/-! ### Traps -/

/-- A trap with the slot empty is taken. -/
theorem trapEntry_of_empty (k : TrapKind) (ret : PC) {s : State} (h : s.saved = none) :
    trapEntry k ret s = .next { s with
      sr := handlerSr s.params k s.sr
      saved := some { sr := savedSr s.sr, ret := ret }
      pc := vectorOf s.params k
      waitAt := none } := by
  simp [trapEntry, h]

/-- A trap with the slot full is refused (R158 step 0). -/
theorem trapEntry_of_full (k : TrapKind) (ret : PC) {s : State} {c : Saved} (h : s.saved = some c) :
    trapEntry k ret s = .refused .nestedTrap := by
  simp [trapEntry, h]

/-- A trap that answers a next state was taken with the slot empty. -/
theorem trapEntry_next {k : TrapKind} {ret : PC} {s t : State} (h : trapEntry k ret s = .next t) :
    s.saved = none ∧ t = { s with
      sr := handlerSr s.params k s.sr
      saved := some { sr := savedSr s.sr, ret := ret }
      pc := vectorOf s.params k
      waitAt := none } := by
  cases hs : s.saved with
  | none => rw [trapEntry_of_empty k ret hs] at h; cases h; exact ⟨rfl, rfl⟩
  | some c => rw [trapEntry_of_full k ret hs] at h; cases h

/-- What a taken trap leaves, in the terms of R158. -/
theorem trapEntry_taken {k : TrapKind} {ret : PC} {s t : State} (h : trapEntry k ret s = .next t) :
    TrapTaken k ret s t := by
  obtain ⟨-, rfl⟩ := trapEntry_next h
  refine ⟨⟨_, rfl, rfl, ?_, fun j hj => ?_⟩, ?_, ?_, ?_, ?_, fun j hj => ?_, rfl, rfl, rfl, rfl, fun _ => rfl, rfl, rfl, rfl⟩
  · exact getLsbD_savedSr _ 12
  · simp only [getLsbD_savedSr, hj, if_false]
  · simp only [srW, getLsbD_handlerSr]; rfl
  · simp only [srP, getLsbD_handlerSr]; rfl
  · simp only [srT, getLsbD_handlerSr]; rfl
  · exact srMask_setMask _ _
  · simp only [List.mem_cons, List.not_mem_nil, or_false, not_or] at hj
    simp only [getLsbD_handlerSr]
    simp [hj]

/-- The return from a trap, where it answers a next state (R142). -/
theorem returnFromTrap_next {s t : State} (h : returnFromTrap s = .next t) :
    ∃ c, s.saved = some c ∧
      t = { s with sr := c.sr, saved := none, pc := c.ret, traceDue := s.params.hasTrace && srT s.sr } := by
  unfold returnFromTrap at h
  split at h
  · cases h
  · next c hc =>
    split at h
    · cases h
    · cases h; exact ⟨c, hc, rfl⟩

/-- Where no `WAIT` is waited in, an interrupt returns to the next instruction to execute (R160). -/
theorem interruptReturn_of_none {s : State} (h : s.waitAt = none) : interruptReturn s = s.pc := by
  unfold interruptReturn
  rw [h]
  cases s.params.waitReturn <;> rfl

/-! ### Completion -/

/-- Completion sets the pc and the due `Trace`, and nothing else. -/
theorem complete_eq (s0 : State) (pc : PC) (s : State) :
    complete s0 pc s = .next { s with pc := pc, traceDue := s0.params.hasTrace && srT s0.sr } := rfl

/-! ### The ALU template (R80) -/

/-- Everything a writing ALU instruction that answers a next state has done: the trap of R151, or the write and the completion. -/
theorem execWrite_next {op : AluOp} {o : WriteOps} {c : AluControl} {s t : State} (h : execWrite op o c s = .next t) :
    c.wf = true ∧
      ((writeViolates s (writeDest o) = true ∧ raisePrivilegeViolation s = .next t) ∨
        (writeViolates s (writeDest o) = false ∧ writeReadable s o = true ∧
          ∃ u, commitWrite (writeResult op o c s) o c s = .ok u ∧ complete s (s.pc + 1) u = .next t)) := by
  unfold execWrite at h
  split at h
  · cases h
  next h1 =>
  refine ⟨by simpa using h1, ?_⟩
  split at h
  next h2 => exact .inl ⟨h2, h⟩
  next h2 =>
  split at h
  · cases h
  next h3 =>
  split at h
  next u hu => exact .inr ⟨by simpa using h2, by simpa using h3, u, hu, h⟩
  · cases h

/-- A writing ALU instruction into a register of the file completes wherever the mode lets it write and read (R80). -/
theorem execWrite_file {op : AluOp} {o : WriteOps} {c : AluControl} {s : State} {g : FileReg} (hc : c.wf = true)
    (hd : writeDest o = .file g) (hv : writeViolates s (writeDest o) = false) (hr : writeReadable s o = true) :
    execWrite op o c s = .next
      { countDraws s with
        regs := s.regs.set g (writeResult op o c s).value
        sr := aluUpdate s c (writeSrcA o) (writeSrcB o) (writeResult op o c s).flags
        pc := s.pc + 1
        traceDue := s.params.hasTrace && srT s.sr } := by
  simp only [execWrite, hc, hr, commitWrite, hd, Bool.not_true, Bool.false_eq_true, if_false]
  rw [hd] at hv
  simp only [hv, Bool.false_eq_true, if_false]
  rfl

/-- A writing ALU instruction into `sr` completes unless R29 or R153 refuses the write (R86). -/
theorem execWrite_sr {op : AluOp} {o : WriteOps} {c : AluControl} {s : State} (hc : c.wf = true)
    (hd : writeDest o = .sr) (hr : writeReadable s o = true)
    (hn : srWriteRefusal s.params s.sr (maskedWrite s.sr (writeResult op o c s).value) = none) :
    execWrite op o c s = .next
      { countDraws s with
        sr := maskedWrite s.sr (writeResult op o c s).value
        pc := s.pc + 1
        traceDue := s.params.hasTrace && srT s.sr } := by
  have hv : writeViolates s .sr = false := rfl
  simp only [execWrite, hc, hr, commitWrite, hd, hv, writeReg, writeSr, countDraws_params, countDraws_sr, hn,
    Bool.not_true, Bool.false_eq_true, if_false]
  rfl

/-- A privileged destination in protected mode raises `PrivilegeViolation`, whatever the operands (R151). -/
theorem execWrite_violation {op : AluOp} {o : WriteOps} {c : AluControl} {s : State} (hc : c.wf = true)
    (hv : writeViolates s (writeDest o) = true) : execWrite op o c s = raisePrivilegeViolation s := by
  simp [execWrite, hc, hv]

/-- What a compare or test instruction that answers a next state has done: the flags and the completion (R80). -/
theorem execFlagsOnly_next {op : AluOp} {o : TestOps} {c : AluControl} {s t : State}
    (h : execFlagsOnly op o c s = .next t) :
    c.wf = true ∧ testReadable s o = true ∧ t =
      { countDraws s with
        sr := aluUpdate s c (testSrcA o) (testSrcB o) (testResult op o c s).flags
        pc := s.pc + 1
        traceDue := s.params.hasTrace && srT s.sr } := by
  unfold execFlagsOnly at h
  split at h
  · cases h
  next h1 =>
  split at h
  · cases h
  next h2 => cases h; exact ⟨by simpa using h1, by simpa using h2, rfl⟩

/-- A compare or test instruction completes wherever the mode lets it read its operands (R80). -/
theorem execFlagsOnly_ok {op : AluOp} {o : TestOps} {c : AluControl} {s : State} (hc : c.wf = true)
    (hr : testReadable s o = true) :
    execFlagsOnly op o c s = .next
      { countDraws s with
        sr := aluUpdate s c (testSrcA o) (testSrcB o) (testResult op o c s).flags
        pc := s.pc + 1
        traceDue := s.params.hasTrace && srT s.sr } := by
  simp [execFlagsOnly, hc, hr, complete]

/-- The automatic update touches bits 3 to 0 only (R80). -/
theorem getLsbD_autoUpdate_high (c : AluControl) (a b : Word) (f : Flags) (sr : Word) {j : Nat} (hj : 4 ≤ j) :
    (autoUpdate c a b f sr).getLsbD j = sr.getLsbD j := by
  unfold autoUpdate
  split <;> first | rfl | exact getLsbD_withFlags_high _ _ hj

/-- The flags after the automatic update with `u = alu` are the class's (R81). -/
theorem autoUpdate_alu {c : AluControl} (h : c.update = .alu) (a b : Word) (f : Flags) (sr : Word) :
    autoUpdate c a b f sr = withFlags sr f := by
  simp [autoUpdate, h]

/-- With `u = none` nothing is updated (R81). -/
theorem autoUpdate_none {c : AluControl} (h : c.update = .none) (a b : Word) (f : Flags) (sr : Word) :
    autoUpdate c a b f sr = sr := by
  simp [autoUpdate, h]

/-- With `u = shift` the flags are the shift's (R102). -/
theorem autoUpdate_shift {c : AluControl} {sh : ShiftSpec} (h : c.update = .shift) (hs : c.shift = some sh) (a b : Word)
    (f : Flags) (sr : Word) :
    autoUpdate c a b f sr = withFlags sr (Flags.ofNibble (Config.shiftFlags sh a b (flagsOf sr).nibble)) := by
  simp [autoUpdate, h, hs]

/-! ### Loads -/

/-- The segment part of every address is the high member of the operand's pair, overflow or not (R50). -/
@[simp] theorem effectiveAddress_segment (k : AddressCalc) :
    (effectiveAddress k).segment = k.regs.get (pairHigh (Config.addrPair k.operand)) := rfl

/-- The offset part of a calculation that overflows (R51). -/
theorem effectiveAddress_offset_wrap {k : AddressCalc} (h : Config.addrOverflow k = true) :
    (effectiveAddress k).offset = Config.wrapOffset k := by
  simp [effectiveAddress, h]

/-- The offset part of a calculation that does not overflow (R50, R52). -/
theorem effectiveAddress_offset_plain {k : AddressCalc} (h : Config.addrOverflow k = false) :
    (effectiveAddress k).offset =
      (k.regs.get (pairLow (Config.addrPair k.operand))).toNat + Config.displacement k := by
  simp [effectiveAddress, baseAddress, h]

/-- With A clear nothing traps (R51). -/
theorem overflowTraps_of_clear {s : State} (h : srA s.sr = false) (k : AddressCalc) : overflowTraps s k = false := by
  simp [overflowTraps, h]

/-- What the writes of `LDEA` leave: they touch the registers named and `sr` only (R111). -/
theorem writeParts_frame {a : Address} {rs : List Reg} {s t : State} (h : writeParts a rs s = .ok t) :
    t.pc = s.pc ∧ t.saved = s.saved ∧ t.pending = s.pending ∧ t.traceDue = s.traceDue ∧ t.mem = s.mem ∧ t.text = s.text ∧
      t.labels = s.labels ∧ t.env = s.env ∧ t.draws = s.draws ∧ t.params = s.params ∧
      (∀ g, Reg.file g ∉ rs → t.regs.get g = s.regs.get g) ∧ (Reg.sr ∉ rs → t.sr = s.sr) ∧
      (t.sr = s.sr ∨ (srW t.sr = true → srW s.sr = true) ∧ (srH t.sr = true → srH s.sr = true)) ∧ t.waitAt = s.waitAt := by
  induction rs generalizing s with
  | nil =>
    simp only [writeParts, Except.ok.injEq] at h
    subst h
    exact ⟨rfl, rfl, rfl, rfl, rfl, rfl, rfl, rfl, rfl, rfl, fun _ _ => rfl, fun _ => rfl, .inl rfl, rfl⟩
  | cons r rs ih =>
    unfold writeParts at h
    split at h
    · next u hu =>
      obtain ⟨h1, h2, h3, h4, h5, h6, h7, h8, h9, h10, h11, h12, h13, h14⟩ := ih h
      rcases writeReg_ok hu with ⟨g, rfl, rfl⟩ | ⟨rfl, hw, rfl⟩
      · refine ⟨h1, h2, h3, h4, h5, h6, h7, h8, h9, h10, fun g' hg' => ?_, fun hs => ?_, h13, h14⟩
        · simp only [List.mem_cons, not_or] at hg'
          rw [h11 g' hg'.2]
          exact RegFile.get_set_ne _ (fun e => hg'.1 (by rw [e])) _
        · simp only [List.mem_cons, not_or] at hs
          exact h12 hs.2
      · refine ⟨h1, h2, h3, h4, h5, h6, h7, h8, h9, h10, fun g' hg' => ?_, fun hs => ?_, .inr ?_, h14⟩
        · simp only [List.mem_cons, not_or] at hg'
          exact h11 g' hg'.2
        · simp only [List.mem_cons, not_or] at hs
          exact absurd trivial hs.1
        · obtain ⟨-, hn⟩ := writeSr_ok hw
          obtain ⟨w1, w2, -⟩ := srWriteRefusal_none hn
          rcases h13 with e | ⟨e1, e2⟩
          · rw [e]; exact ⟨w1, w2⟩
          · exact ⟨fun x => w1 (e1 x), fun x => w2 (e2 x)⟩
    · cases h

/-- Everything `LOAD` can have done (R110). -/
theorem execLoad_next {rd : Reg} {a : AddrOperand} {s t : State} (h : execLoad rd a s = .next t) :
    (writeViolates s rd = true ∧ raisePrivilegeViolation s = .next t) ∨
      (writeViolates s rd = false ∧ overflowTraps s (addressCalc .load a s) = true ∧ raiseAddressOverflow s = .next t) ∨
      (writeViolates s rd = false ∧ overflowTraps s (addressCalc .load a s) = false ∧ loadAdmitted a s = true ∧
        ∃ u, writeReg rd (loadedValue a s) s = .ok u ∧ complete s (s.pc + 1) u = .next t) := by
  unfold execLoad at h
  split at h
  next h1 => exact .inl ⟨h1, h⟩
  next h1 =>
  split at h
  next h2 => exact .inr (.inl ⟨by simpa using h1, h2, h⟩)
  next h2 =>
  split at h
  · cases h
  next h3 =>
  split at h
  next u hu => exact .inr (.inr ⟨by simpa using h1, by simpa using h2, by simpa using h3, u, hu, h⟩)
  · cases h

/-- Everything `LDEA` can have done (R111). -/
theorem execLdea_next {d : LeaDest} {a : AddrOperand} {s t : State} (h : execLdea d a s = .next t) :
    ((leaRegs d).any (writeViolates s) = true ∧ raisePrivilegeViolation s = .next t) ∨
      ((leaRegs d).any (writeViolates s) = false ∧ overflowTraps s (addressCalc .ldea a s) = true ∧
        raiseAddressOverflow s = .next t) ∨
      ((leaRegs d).any (writeViolates s) = false ∧ overflowTraps s (addressCalc .ldea a s) = false ∧
        ∃ u, writeParts (effectiveAddress (addressCalc .ldea a s)) (leaRegs d) s = .ok u ∧
          complete s (s.pc + 1) u = .next t) := by
  unfold execLdea at h
  split at h
  next h1 => exact .inl ⟨h1, h⟩
  next h1 =>
  split at h
  next h2 => exact .inr (.inl ⟨by simpa using h1, h2, h⟩)
  next h2 =>
  split at h
  next u hu => exact .inr (.inr ⟨by simpa using h1, by simpa using h2, u, hu, h⟩)
  · cases h

/-! ### Branch -/

/-- Everything `BRAN` can have done (R120): only the pc and the due `Trace` change. -/
theorem execBran_next {cc : Cond} {l : Label} {s t : State} (h : execBran cc l s = .next t) :
    ((flagsOf s.sr).holds cc = true ∧ ∃ target, labelTarget s.labels l = some target ∧
        t = { s with pc := target, traceDue := s.params.hasTrace && srT s.sr }) ∨
      ((flagsOf s.sr).holds cc = false ∧ t = { s with pc := s.pc + 1, traceDue := s.params.hasTrace && srT s.sr }) := by
  unfold execBran at h
  split at h
  next h1 =>
    split at h
    next target ht => cases h; exact .inl ⟨h1, target, ht, rfl⟩
    · cases h
  next h1 => cases h; exact .inr ⟨by simpa using h1, rfl⟩

/-! ### Coprocessor operations -/

/-- Everything a coprocessor operation that answers a next state has done (R143): the registers are `COPROC`'s, in protected mode less
the high members, and it completes. -/
theorem coprocessorOperation_next {c : Word} {s t : State} (h : coprocessorOperation c s = .next t) :
    ¬(0x0800 ≤ c.toNat ∧ srP s.sr = true) ∧ ∃ f, Config.coproc s.draws c s.regs = some f ∧
      t = { countDraws s with
        regs := if srP s.sr then s.regs.keepHigh f else f
        pc := s.pc + 1
        traceDue := s.params.hasTrace && srT s.sr } := by
  unfold coprocessorOperation at h
  split at h
  · cases h
  next hp =>
  split at h
  · cases h
  next f hf => cases h; exact ⟨hp, f, hf, rfl⟩

end Sys2Proof.Machine
end

