-- ==== Sys2Proof/Laws/Memory.lean ====
section
/-! SUPPORT. Memory laws: read after write, and every memory operation keeps the canonical form. -/

namespace Sys2Proof.Machine

theorem Memory.wfFrom_mono {lo lo' : Nat} {m : Memory} (hle : lo' ≤ lo) (h : Memory.wfFrom lo m = true) :
    Memory.wfFrom lo' m = true := by
  cases m with
  | nil => rfl
  | cons e m =>
    simp only [Memory.wfFrom, Bool.and_eq_true, decide_eq_true_eq] at h ⊢
    exact ⟨⟨by omega, h.1.2⟩, h.2⟩

theorem Memory.read_of_lt {lo a : Nat} {m : Memory} (h : Memory.wfFrom lo m = true) (ha : a < lo) :
    Memory.read m a = Memory.unlisted := by
  induction m generalizing lo with
  | nil => rfl
  | cons e m ih =>
    simp only [Memory.wfFrom, Bool.and_eq_true, decide_eq_true_eq] at h
    have : e.1 ≠ a := by omega
    simp only [Memory.read, this, if_false]
    exact ih h.2 (by omega)

theorem Memory.write_wfFrom {lo : Nat} {m : Memory} (h : Memory.wfFrom lo m = true) {a : Nat} (ha : lo ≤ a) (b : Byte) :
    Memory.wfFrom lo (Memory.write m a b) = true := by
  induction m generalizing lo with
  | nil => unfold Memory.write; split <;> simp_all [Memory.wfFrom]
  | cons e m ih =>
    obtain ⟨k, v⟩ := e
    simp only [Memory.wfFrom, Bool.and_eq_true, decide_eq_true_eq] at h
    obtain ⟨⟨h1, h2⟩, h3⟩ := h
    unfold Memory.write
    split_ifs with c1 c2 c3 c4
    · simp only [Memory.wfFrom, Bool.and_eq_true, decide_eq_true_eq]; exact ⟨⟨h1, h2⟩, h3⟩
    · simp only [Memory.wfFrom, Bool.and_eq_true, decide_eq_true_eq]
      exact ⟨⟨ha, by simpa using c2⟩, ⟨by omega, h2⟩, h3⟩
    · exact Memory.wfFrom_mono (by omega) h3
    · subst c3
      simp only [Memory.wfFrom, Bool.and_eq_true, decide_eq_true_eq]
      exact ⟨⟨ha, by simpa using c4⟩, h3⟩
    · simp only [Memory.wfFrom, Bool.and_eq_true, decide_eq_true_eq]
      exact ⟨⟨h1, h2⟩, ih h3 (by omega)⟩

/-- A write of one byte keeps the canonical form. -/
theorem Memory.write_wf {m : Memory} (h : m.wf = true) (a : Nat) (b : Byte) : (Memory.write m a b).wf = true :=
  Memory.write_wfFrom h (Nat.zero_le a) b

theorem Memory.read_write_from {lo : Nat} {m : Memory} (h : Memory.wfFrom lo m = true) (a : Nat) (b : Byte) (x : Nat) :
    Memory.read (Memory.write m a b) x = if x = a then b else Memory.read m x := by
  induction m generalizing lo with
  | nil =>
    unfold Memory.write
    split_ifs with c1 c2 <;> simp_all [Memory.read]
    intro e; exact absurd e.symm (by assumption)
  | cons e m ih =>
    obtain ⟨k, v⟩ := e
    simp only [Memory.wfFrom, Bool.and_eq_true, decide_eq_true_eq] at h
    obtain ⟨⟨h1, h2⟩, h3⟩ := h
    have hlow : ∀ y, y ≤ k → Memory.read m y = Memory.unlisted := fun y hy => Memory.read_of_lt h3 (by omega)
    unfold Memory.write
    by_cases c1 : a < k
    · by_cases c2 : b = Memory.unlisted
      · rw [if_pos c1, if_pos c2]
        by_cases cx : x = a
        · subst cx
          have : k ≠ x := by omega
          simp [Memory.read, this, c2, hlow x (by omega)]
        · simp [cx]
      · rw [if_pos c1, if_neg c2]
        by_cases cx : x = a
        · simp [Memory.read, cx]
        · simp [Memory.read, cx, Ne.symm cx]
    · by_cases c3 : a = k
      · subst c3
        by_cases c4 : b = Memory.unlisted
        · rw [if_neg c1, if_pos rfl, if_pos c4]
          by_cases cx : x = a
          · simp [cx, c4, hlow a le_rfl]
          · simp [Memory.read, cx, Ne.symm cx]
        · rw [if_neg c1, if_pos rfl, if_neg c4]
          by_cases cx : x = a
          · simp [Memory.read, cx]
          · simp [Memory.read, cx, Ne.symm cx]
      · rw [if_neg c1, if_neg c3]
        by_cases cx : k = x
        · subst cx; simp [Memory.read, Ne.symm c3]
        · simp only [Memory.read, cx, if_false]; exact ih h3

/-- A write of a load's width keeps the canonical form. -/
theorem memWrite_wf (p : MemParams) {m : Memory} (h : m.wf = true) (a : Nat) (v : Word) : (memWrite p m a v).wf = true := by
  unfold memWrite
  split
  · exact Memory.write_wf h _ _
  · exact Memory.write_wf h _ _
  · split <;> exact Memory.write_wf (Memory.write_wf h _ _) _ _

/-- The memory after reset has the canonical form. -/
theorem State.reset_mem_wf : State.reset.mem.wf = true := rfl

end Sys2Proof.Machine
end

