-- ==== Sys2Proof/Laws/PerInstr.lean ====
section
/-! SUPPORT. The per-instruction family EncodeSpelled: which instruction terms the encoder gives a text. -/

namespace Sys2Proof.Laws.EncodeSpelled

/-- The encoder gives an instruction term a line exactly if the source gives it a spelling (R71, R81, R102, R111, R133). -/
def Statement (i : Instr) : Prop := (encode i).isSome = Spelled i

theorem aluLine_isSome (m : Mnemonic) (t : Text) (c : AluControl) : (aluLine m t c).isSome = decide (c = .plain) := by
  unfold aluLine
  split
  next h => simp [h]
  next h => simp [h]

theorem addi (o : WriteOps) (c : AluControl) : Statement (.addi o c) := aluLine_isSome _ _ c
theorem subi (o : WriteOps) (c : AluControl) : Statement (.subi o c) := aluLine_isSome _ _ c
theorem adci (o : WriteOps) (c : AluControl) : Statement (.adci o c) := aluLine_isSome _ _ c
theorem sbci (o : WriteOps) (c : AluControl) : Statement (.sbci o c) := aluLine_isSome _ _ c
theorem addr (o : WriteOps) (c : AluControl) : Statement (.addr o c) := aluLine_isSome _ _ c
theorem andi (o : WriteOps) (c : AluControl) : Statement (.andi o c) := aluLine_isSome _ _ c
theorem orri (o : WriteOps) (c : AluControl) : Statement (.orri o c) := aluLine_isSome _ _ c
theorem xori (o : WriteOps) (c : AluControl) : Statement (.xori o c) := aluLine_isSome _ _ c
theorem cmpi (o : TestOps) (c : AluControl) : Statement (.cmpi o c) := aluLine_isSome _ _ c
theorem cmpr (o : TestOps) (c : AluControl) : Statement (.cmpr o c) := aluLine_isSome _ _ c
theorem tsai (o : TestOps) (c : AluControl) : Statement (.tsai o c) := aluLine_isSome _ _ c
theorem tsar (o : TestOps) (c : AluControl) : Statement (.tsar o c) := aluLine_isSome _ _ c
theorem tsxi (o : TestOps) (c : AluControl) : Statement (.tsxi o c) := aluLine_isSome _ _ c
theorem tsxr (o : TestOps) (c : AluControl) : Statement (.tsxr o c) := aluLine_isSome _ _ c
theorem load (rd : Reg) (a : AddrOperand) : Statement (.load rd a) := rfl
theorem ldea (d : LeaDest) (a : AddrOperand) : Statement (.ldea d a) := by cases d <;> rfl
theorem bran (cc : Cond) (l : Label) : Statement (.bran cc l) := Option.isSome_map
theorem wait : Statement .wait := rfl
theorem halt : Statement .halt := rfl
theorem rete : Statement .rete := rfl

end Sys2Proof.Laws.EncodeSpelled
end

