-- ==== Sys2Proof/Laws/Step.lean ====
section
/-! SUPPORT. What an instruction and a step can do, said once: every invariant and every whole-machine rule is a short case analysis
over `exec_next` and `step_next`. -/

namespace Sys2Proof.Machine

/-- What an instruction other than WAIT, HALT and RETE leaves when it completes without a trap. -/
structure Ordinary (i : Instr) (s t : State) : Prop where
  saved : t.saved = s.saved
  pending : t.pending = s.pending
  mem : t.mem = s.mem
  text : t.text = s.text
  labels : t.labels = s.labels
  env : t.env = s.env
  params : t.params = s.params
  traceDue : t.traceDue = (s.params.hasTrace && srT s.sr)
  waitAt : t.waitAt = s.waitAt
  regs : ∀ g, Reg.file g ∉ destinations i → t.regs.get g = s.regs.get g
  allowed : ∀ r ∈ destinations i, writeViolates s r = false
  sr : (Reg.sr ∈ destinations i ∧ srWriteRefusal s.params s.sr t.sr = none ∧ ∃ v, t.sr = maskedWrite s.sr v) ∨
    (Reg.sr ∉ destinations i ∧ ∀ j, 4 ≤ j → t.sr.getLsbD j = s.sr.getLsbD j)

/-- A synchronous exception was taken in the instruction. -/
def SyncTrap (s t : State) : Prop :=
  raisePrivilegeViolation s = .next t ∨ raiseAddressOverflow s = .next t

/-- Everything an instruction that answers a next state can have done. -/
inductive ExecCase (i : Instr) (s t : State) : Prop
  | trap (h : SyncTrap s t) (hi : ∃ r, r ∈ destinations i)
  | ordinary (h : Ordinary i s t) (hi : i ≠ .wait ∧ i ≠ .halt ∧ i ≠ .rete)
  | wait (hi : i = .wait) (hp : srP s.sr = false)
      (ht : t = { s with
        sr := setBit s.sr 12 true, waitAt := some s.pc, pc := s.pc + 1, traceDue := s.params.hasTrace && srT s.sr })
  | halt (hi : i = .halt) (hp : srP s.sr = false) (hh : s.params.hasHalt = true)
      (ht : t = { s with sr := setBit s.sr 13 true, pc := s.pc + 1, traceDue := false })
  | rete (hi : i = .rete) (hp : srP s.sr = false) (c : Saved) (hc : s.saved = some c)
      (ht : t = { s with
        sr := c.sr, saved := none, pc := c.ret, traceDue := s.params.hasTrace && srT s.sr })

/-- The write of a writing instruction, by its destination. -/
theorem commitWrite_ok {res : AluResult} {o : WriteOps} {c : AluControl} {s u : State}
    (h : commitWrite res o c s = .ok u) :
    (∃ g, writeDest o = .file g ∧ u = { countDraws s with
        regs := s.regs.set g res.value
        sr := aluUpdate s c (writeSrcA o) (writeSrcB o) res.flags }) ∨
      (writeDest o = .sr ∧ srWriteRefusal s.params s.sr (maskedWrite s.sr res.value) = none ∧
        u = { countDraws s with sr := maskedWrite s.sr res.value }) := by
  unfold commitWrite at h
  split at h
  · next hd =>
    rcases writeReg_ok h with ⟨g, hg, -⟩ | ⟨-, hw, rfl⟩
    · cases hg
    · exact .inr ⟨hd, (writeSr_ok hw).2, rfl⟩
  · next g hd => cases h; exact .inl ⟨g, hd, rfl⟩

theorem execWrite_case {i : Instr} {op : AluOp} {o : WriteOps} {c : AluControl} {s t : State}
    (hd : destinations i = [writeDest o]) (hi : i ≠ .wait ∧ i ≠ .halt ∧ i ≠ .rete)
    (h : execWrite op o c s = .next t) : ExecCase i s t := by
  obtain ⟨-, ⟨-, h⟩ | ⟨hv, -, u, hu, h⟩⟩ := execWrite_next h
  · exact .trap (.inl h) ⟨writeDest o, by simp [hd]⟩
  · rw [complete_eq] at h
    cases h
    refine .ordinary ?_ hi
    rcases commitWrite_ok hu with ⟨g, hg, rfl⟩ | ⟨hs, hr, rfl⟩
    · refine ⟨rfl, rfl, rfl, rfl, rfl, rfl, rfl, rfl, rfl, fun g' hg' => ?_, fun r hr => ?_, .inr ⟨?_, fun j hj => ?_⟩⟩
      · exact RegFile.get_set_ne _ (fun e => hg' (by rw [hd, hg, e]; exact List.mem_singleton.mpr rfl)) _
      · rw [hd] at hr; rw [List.mem_singleton.mp hr]; exact hv
      · rw [hd, hg]; simp
      · exact getLsbD_autoUpdate_high _ _ _ _ _ hj
    · refine ⟨rfl, rfl, rfl, rfl, rfl, rfl, rfl, rfl, rfl, fun _ _ => rfl, fun r hr' => ?_, .inl ⟨?_, hr, _, rfl⟩⟩
      · rw [hd] at hr'; rw [List.mem_singleton.mp hr']; exact hv
      · rw [hd, hs]; simp

theorem execFlagsOnly_case {i : Instr} {op : AluOp} {o : TestOps} {c : AluControl} {s t : State}
    (hd : destinations i = []) (hi : i ≠ .wait ∧ i ≠ .halt ∧ i ≠ .rete)
    (h : execFlagsOnly op o c s = .next t) : ExecCase i s t := by
  obtain ⟨-, -, rfl⟩ := execFlagsOnly_next h
  refine .ordinary ⟨rfl, rfl, rfl, rfl, rfl, rfl, rfl, rfl, rfl, fun _ _ => rfl, fun r hr => ?_, .inr ⟨?_, fun j hj => ?_⟩⟩ hi
  · rw [hd] at hr; cases hr
  · rw [hd]; simp
  · exact getLsbD_autoUpdate_high _ _ _ _ _ hj

/-- What a list of destination writes with at most one entry for `sr` leaves of `sr`. -/
theorem execLoad_case {rd : Reg} {a : AddrOperand} {s t : State} (h : execLoad rd a s = .next t) :
    ExecCase (.load rd a) s t := by
  rcases execLoad_next h with ⟨-, h⟩ | ⟨-, -, h⟩ | ⟨hv, -, -, u, hu, h⟩
  · exact .trap (.inl h) ⟨rd, by simp [destinations]⟩
  · exact .trap (.inr h) ⟨rd, by simp [destinations]⟩
  · rw [complete_eq] at h
    cases h
    refine .ordinary ?_ (by simp)
    rcases writeReg_ok hu with ⟨g, rfl, rfl⟩ | ⟨rfl, hw, rfl⟩
    · refine ⟨rfl, rfl, rfl, rfl, rfl, rfl, rfl, rfl, rfl, fun g' hg' => ?_, fun r hr => ?_, .inr ⟨?_, fun _ _ => rfl⟩⟩
      · exact RegFile.get_set_ne _ (fun e => hg' (by simp [destinations, e])) _
      · simp only [destinations, List.mem_singleton] at hr; rw [hr]; exact hv
      · simp [destinations]
    · refine ⟨rfl, rfl, rfl, rfl, rfl, rfl, rfl, rfl, rfl, fun _ _ => rfl, fun r hr => ?_,
        .inl ⟨by simp [destinations], (writeSr_ok hw).2, _, rfl⟩⟩
      simp only [destinations, List.mem_singleton] at hr; rw [hr]; exact hv

theorem execLdea_case {d : LeaDest} {a : AddrOperand} {s t : State} (h : execLdea d a s = .next t) :
    ExecCase (.ldea d a) s t := by
  have hdest : ∃ r, r ∈ destinations (.ldea d a) := by
    cases d with
    | reg r => exact ⟨r, by simp [destinations, leaRegs]⟩
    | pair p => exact ⟨_, List.mem_cons_self⟩
  rcases execLdea_next h with ⟨-, h⟩ | ⟨-, -, h⟩ | ⟨hv, -, u, hu, h⟩
  · exact .trap (.inl h) hdest
  · exact .trap (.inr h) hdest
  · rw [complete_eq] at h
    cases h
    obtain ⟨-, h2, h3, -, h5, h6, h7, h8, -, h10, h11, h12, -, h14⟩ := writeParts_frame hu
    refine .ordinary ⟨h2, h3, h5, h6, h7, h8, h10, rfl, h14, h11, fun r hr => ?_, ?_⟩ (by simp)
    · simpa using List.any_eq_false.mp hv r hr
    · by_cases hs : Reg.sr ∈ leaRegs d
      · refine .inl ⟨hs, ?_⟩
        cases d with
        | pair p => simp [leaRegs] at hs
        | reg r =>
          simp only [leaRegs, List.mem_singleton] at hs
          subst hs
          simp only [leaRegs, writeParts] at hu
          split at hu
          · next v hw =>
            cases hu
            rcases writeReg_ok hw with ⟨g, hg, -⟩ | ⟨-, hw', rfl⟩
            · cases hg
            · exact ⟨(writeSr_ok hw').2, _, rfl⟩
          · cases hu
      · exact .inr ⟨hs, fun j _ => by simp only [h12 hs]⟩

/-- Everything an instruction that answers a next state can have done, for every instruction. -/
theorem exec_next {i : Instr} {s t : State} (h : exec i s = .next t) : ExecCase i s t := by
  cases i with
  | addi o c => exact execWrite_case rfl (by simp) h
  | subi o c => exact execWrite_case rfl (by simp) h
  | adci o c => exact execWrite_case rfl (by simp) h
  | sbci o c => exact execWrite_case rfl (by simp) h
  | addr o c => exact execWrite_case rfl (by simp) h
  | andi o c => exact execWrite_case rfl (by simp) h
  | orri o c => exact execWrite_case rfl (by simp) h
  | xori o c => exact execWrite_case rfl (by simp) h
  | cmpi o c => exact execFlagsOnly_case rfl (by simp) h
  | cmpr o c => exact execFlagsOnly_case rfl (by simp) h
  | tsai o c => exact execFlagsOnly_case rfl (by simp) h
  | tsar o c => exact execFlagsOnly_case rfl (by simp) h
  | tsxi o c => exact execFlagsOnly_case rfl (by simp) h
  | tsxr o c => exact execFlagsOnly_case rfl (by simp) h
  | load rd a => exact execLoad_case h
  | ldea d a => exact execLdea_case h
  | bran cc l =>
    have hb : ∃ pc, t = { s with pc := pc, traceDue := s.params.hasTrace && srT s.sr } := by
      rcases execBran_next h with ⟨-, target, -, e⟩ | ⟨-, e⟩
      · exact ⟨target, e⟩
      · exact ⟨s.pc + 1, e⟩
    obtain ⟨pc, rfl⟩ := hb
    exact .ordinary ⟨rfl, rfl, rfl, rfl, rfl, rfl, rfl, rfl, rfl, fun _ _ => rfl, fun r hr => by simp [destinations] at hr,
      .inr ⟨by simp [destinations], fun _ _ => rfl⟩⟩ (by simp)
  | wait =>
    have h : execWait s = .next t := h
    unfold execWait at h
    split at h
    · cases h
    · next hp => cases h; exact .wait rfl (by simpa using hp) rfl
  | halt =>
    have h : execHalt s = .next t := h
    unfold execHalt at h
    split at h
    · cases h
    next hh =>
    split at h
    · cases h
    next hp => cases h; exact .halt rfl (by simpa using hp) (by simpa using hh) rfl
  | rete =>
    have h : execRete s = .next t := h
    unfold execRete at h
    split at h
    · cases h
    next hp =>
    obtain ⟨c, hc, ht⟩ := returnFromTrap_next h
    exact .rete rfl (by simpa using hp) c hc ht

/-- Everything a step that answers a next state can have done. -/
inductive StepCase (s t : State) : Prop
  | raised (q : Priority) (es : List EnvEvent) (he : s.env = .raise q :: es) (ht : t = raiseRequest q { s with env := es })
  | withdrawn (q : Priority) (es : List EnvEvent) (he : s.env = .withdraw q :: es)
      (ht : t = withdrawRequest q { s with env := es })
  | reset (es : List EnvEvent) (he : s.env = .reset :: es) (ht : t = resetCpu { s with env := es })
  | idle (es : List EnvEvent) (ht : t = { s with env := es })
  | blank (es : List EnvEvent) (ht : t = { s with env := es, pc := s.pc + 1 })
  | interrupt (es : List EnvEvent) (hh : srH s.sr = false) (q : Priority) (ret : PC)
      (ht : trapEntry (.interrupt q) ret { s with env := es } = .next t)
  | trace (es : List EnvEvent) (hh : srH s.sr = false) (ht : takeTrace { s with env := es } = .next t)
  | instr (es : List EnvEvent) (hh : srH s.sr = false) (hw : srW s.sr = false) (hd : s.traceDue = false) (i : Instr) (line : Line)
      (hl : s.text[s.pc]? = some line) (hi : readLine line = .ok (.instr i)) (ht : exec i { s with env := es } = .next t)
  | coprocessor (es : List EnvEvent) (hh : srH s.sr = false) (hw : srW s.sr = false) (hd : s.traceDue = false) (c : Word)
      (line : Line) (hl : s.text[s.pc]? = some line) (hi : readLine line = .ok (.coprocessor c))
      (ht : coprocessorOperation c { s with env := es } = .next t)

/-- The CPU's turn of a halted CPU. -/
theorem cpuTurn_halted {s : State} (hh : srH s.sr = true) : cpuTurn s = .settled (.next s) := if_pos hh

/-- The CPU's turn with a Trace due. -/
theorem cpuTurn_trace {s : State} (hh : ¬srH s.sr = true) (hd : s.traceDue = true) : cpuTurn s = .settled (takeTrace s) :=
  (if_neg hh).trans (if_pos hd)

/-- The CPU's turn of a waiting CPU. -/
theorem cpuTurn_waiting {s : State} (hh : ¬srH s.sr = true) (hd : ¬s.traceDue = true) (hw : srW s.sr = true) :
    cpuTurn s = .settled (.next s) :=
  (if_neg hh).trans ((if_neg hd).trans (if_pos hw))

/-- The CPU's turn when nothing stands before the fetch. -/
theorem cpuTurn_fetch {s : State} (hh : ¬srH s.sr = true) (hd : ¬s.traceDue = true) (hw : ¬srW s.sr = true) :
    cpuTurn s = fetchTurn s :=
  (if_neg hh).trans ((if_neg hd).trans (if_neg hw))

/-- What the CPU's turn can come to. -/
theorem cpuTurn_case {s t : State} {es : List EnvEvent}
    (h : (match cpuTurn { s with env := es } with | .settled o => o | .run i u => exec i u) = .next t) : StepCase s t := by
  by_cases hh : srH s.sr = true
  · rw [cpuTurn_halted (s := { s with env := es }) hh] at h
    cases h
    exact .idle es rfl
  by_cases hd : s.traceDue = true
  · rw [cpuTurn_trace (s := { s with env := es }) hh hd] at h
    exact .trace es (by simpa using hh) h
  by_cases hw : srW s.sr = true
  · rw [cpuTurn_waiting (s := { s with env := es }) hh hd hw] at h
    cases h
    exact .idle es rfl
  rw [cpuTurn_fetch (s := { s with env := es }) hh hd hw] at h
  unfold fetchTurn at h
  have hf : fetch { s with env := es } = s.text[s.pc]? := rfl
  rw [hf] at h
  cases hl : s.text[s.pc]? with
  | none => rw [hl] at h; cases h
  | some line =>
    rw [hl] at h
    dsimp only at h
    cases hi : readLine line with
    | ok o =>
      rw [hi] at h
      cases o with
      | instr i => exact .instr es (by simpa using hh) (by simpa using hw) (by simpa using hd) i line hl hi h
      | coprocessor c => exact .coprocessor es (by simpa using hh) (by simpa using hw) (by simpa using hd) c line hl hi h
    | error e => rw [hi] at h; cases e <;> cases h; exact .blank es rfl

/-- Everything a step that answers a next state can have done, for every state. -/
theorem step_next {s t : State} (h : step s = .next t) : StepCase s t := by
  unfold step boundary at h
  cases he : s.env with
  | nil =>
    have e : s = { s with env := [] } := by rw [← he]
    simp only [he] at h
    exact cpuTurn_case (es := []) (by rw [← e]; exact h)
  | cons ev es =>
    cases ev with
    | proceed => simp only [he] at h; exact cpuTurn_case h
    | raise q => simp only [he] at h; cases h; exact .raised q es he rfl
    | withdraw q => simp only [he] at h; cases h; exact .withdrawn q es he rfl
    | reset => simp only [he] at h; cases h; exact .reset es he rfl
    | accept =>
      simp only [he] at h
      unfold acceptInterrupt at h
      split at h
      · cases h; exact .idle es rfl
      next hh =>
      split at h
      · cases h; exact .idle es rfl
      next q hq => exact .interrupt es (by simpa using hh) q _ h

end Sys2Proof.Machine
end

