-- ==== Sys2Proof/Tests/Slice0.lean ====
section
/-! SUPPORT. Tests: ill-formed terms are refused, lines of the source decode, vectors of spec/95_test_vectors.md (their ids in
brackets) hold of one instruction each, and every statement with hypotheses has a state and operands that meet them all. -/

namespace Sys2Proof.Tests

open Sys2Proof.Machine

/-! ### Well-formedness: one ill-formed term for each check -/

theorem test_wf_shift_update_without_shift : WellFormed (.addi (.s1 (.file .r1) 1) ⟨.shift, none⟩) = false := by decide
theorem test_wf_shift_update_in_test : WellFormed (.tsxr (.s4 (.file .r1) .sr) ⟨.shift, none⟩) = false := by decide
theorem test_wf_shift_update_with_shift : WellFormed (.addi (.s1 (.file .r1) 1) ⟨.shift, some ⟨0⟩⟩) = true := by decide
theorem test_wf_empty_label : WellFormed (.bran .eq []) = false := by decide
theorem test_wf_label_with_space : WellFormed (.bran .eq (chars ['a', ' ', 'b'])) = false := by decide
theorem test_wf_empty_address : WellFormed (.load (.file .r1) []) = false := by decide
theorem test_wf_comment_in_address : WellFormed (.load (.file .r1) (chars ['a', ';', 'b'])) = false := by decide
theorem test_wf_space_before_address : WellFormed (.ldea (.reg (.file .r1)) (chars [' ', 'a'])) = false := by decide
theorem test_wf_space_after_address : WellFormed (.ldea (.pair .address) (chars ['a', ' '])) = false := by decide

/-! ### Decoding: lines written out from R67 to R71 and the listings of spec/95_test_vectors.md -/

/-- [E8] `ADDI r1, r2, r3`. -/
theorem test_decode_addi :
    decode (chars ['A', 'D', 'D', 'I', ' ', 'r', '1', ',', ' ', 'r', '2', ',', ' ', 'r', '3']) =
      .ok (.addi (.s3 (.file .r1) (.file .r2) (.file .r3)) .plain) := by decide
/-- [E7] `ADDI ah, #0x05`, with the listing's indentation and comment. -/
theorem test_decode_addi_comment :
    decode (chars [' ', ' ', 'A', 'D', 'D', 'I', ' ', 'a', 'h', ',', ' ', '#', '0', 'x', '0', '5', ' ', ' ', ';', ' ', 'T']) =
      .ok (.addi (.s1 (.file .ah) 5) .plain) := by decide
theorem test_decode_subi :
    decode (chars ['S', 'U', 'B', 'I', ' ', 'r', '1', ',', ' ', '#', '1']) = .ok (.subi (.s1 (.file .r1) 1) .plain) := by decide
theorem test_decode_adci :
    decode (chars ['A', 'D', 'C', 'I', ' ', 'r', '2', ',', ' ', 'r', '2', ',', ' ', 'r', '7']) =
      .ok (.adci (.s3 (.file .r2) (.file .r2) (.file .r7)) .plain) := by decide
theorem test_decode_sbci :
    decode (chars ['S', 'B', 'C', 'I', ' ', 'r', '1', ',', ' ', '#', '0']) = .ok (.sbci (.s1 (.file .r1) 0) .plain) := by decide
/-- [E3] `ADDR sr, r1, #0`. -/
theorem test_decode_addr :
    decode (chars ['A', 'D', 'D', 'R', ' ', 's', 'r', ',', ' ', 'r', '1', ',', ' ', '#', '0']) =
      .ok (.addr (.s2 .sr (.file .r1) 0) .plain) := by decide
/-- [E3] `ANDI sr, #0xF1FF`. -/
theorem test_decode_andi :
    decode (chars ['A', 'N', 'D', 'I', ' ', 's', 'r', ',', ' ', '#', '0', 'x', 'F', '1', 'F', 'F']) =
      .ok (.andi (.s1 .sr 0xF1FF) .plain) := by decide
/-- [E3] `ORRI sr, #0x0100`. -/
theorem test_decode_orri :
    decode (chars ['O', 'R', 'R', 'I', ' ', 's', 'r', ',', ' ', '#', '0', 'x', '0', '1', '0', '0']) =
      .ok (.orri (.s1 .sr 0x0100) .plain) := by decide
theorem test_decode_xori :
    decode (chars ['X', 'O', 'R', 'I', ' ', 'r', '1', ',', ' ', '#', '0', 'x', '5', '5', '5', '5']) =
      .ok (.xori (.s1 (.file .r1) 0x5555) .plain) := by decide
/-- [E5] `CMPI r1, r2`: the fourth letter constrains nothing (R73). -/
theorem test_decode_cmpi :
    decode (chars ['C', 'M', 'P', 'I', ' ', 'r', '1', ',', ' ', 'r', '2']) =
      .ok (.cmpi (.s4 (.file .r1) (.file .r2)) .plain) := by decide
theorem test_decode_cmpr :
    decode (chars ['C', 'M', 'P', 'R', ' ', 'r', '3', ',', ' ', 'r', '3']) =
      .ok (.cmpr (.s4 (.file .r3) (.file .r3)) .plain) := by decide
/-- [E6] `TSAI r1, #0x0020  ; AND`. -/
theorem test_decode_tsai :
    decode (chars ['T', 'S', 'A', 'I', ' ', 'r', '1', ',', ' ', '#', '0', 'x', '0', '0', '2', '0', ' ', ' ', ';', ' ', 'A']) =
      .ok (.tsai (.s1 (.file .r1) 0x0020) .plain) := by decide
theorem test_decode_tsar :
    decode (chars ['T', 'S', 'A', 'R', ' ', 'r', '1', ',', ' ', 'r', '2']) =
      .ok (.tsar (.s4 (.file .r1) (.file .r2)) .plain) := by decide
theorem test_decode_tsxi :
    decode (chars ['T', 'S', 'X', 'I', ' ', 'r', '1', ',', ' ', '#', '0', 'x', '1', '2', '3', '4']) =
      .ok (.tsxi (.s1 (.file .r1) 0x1234) .plain) := by decide
theorem test_decode_tsxr :
    decode (chars ['T', 'S', 'X', 'R', ' ', 'r', '1', ',', ' ', 'l', 'h']) =
      .ok (.tsxr (.s4 (.file .r1) (.file .lh)) .plain) := by decide
theorem test_decode_load :
    decode (chars ['L', 'O', 'A', 'D', ' ', 'r', '7', ',', ' ', '(', 'a', ',', ' ', '#', '4', ')']) =
      .ok (.load (.file .r7) (chars ['(', 'a', ',', ' ', '#', '4', ')'])) := by decide
theorem test_decode_ldea :
    decode (chars ['L', 'D', 'E', 'A', ' ', 'r', '7', ',', ' ', 'x']) = .ok (.ldea (.reg (.file .r7)) (chars ['x'])) := by
  decide
/-- [E5] `BRAN|>= label_signed_ge`: the longest condition spelling is taken whole. -/
theorem test_decode_bran :
    decode (chars ['B', 'R', 'A', 'N', '|', '>', '=', ' ', 's', '_', 'g', 'e']) =
      .ok (.bran .signedGreaterOrEqual (chars ['s', '_', 'g', 'e'])) := by decide
/-- `BRAN|>=0 l` is N clear, not `>=` (R71). -/
theorem test_decode_bran_zero :
    decode (chars ['B', 'R', 'A', 'N', '|', '>', '=', '0', ' ', 'l']) = .ok (.bran .negClear (chars ['l'])) := by decide
theorem test_decode_wait : decode (chars ['W', 'A', 'I', 'T']) = .ok .wait := by decide
theorem test_decode_halt : decode (chars ['H', 'A', 'L', 'T']) = .ok .halt := by decide
/-- `RETE` as the four bytes of a word, the first byte in bits 7 to 0. -/
theorem test_decode_rete : decodeTableWord 32 0x45544552 = some .rete := by decide
/-- [V-N6] `BRAN|< label`: not a spelling of the source. -/
theorem test_decode_unspelled_condition :
    decode (chars ['B', 'R', 'A', 'N', '|', '<', ' ', 'l']) = .error .unknownCondition := by decide
/-- A condition on another mnemonic (R70), an immediate over 16 bits (R69), an unknown register (R72). -/
theorem test_decode_rejects :
    decode (chars ['A', 'D', 'D', 'I', '|', '=', '=', ' ', 'r', '1', ',', '#', '1']) = .error .suffixNotAdmitted ∧
      decode (chars ['A', 'D', 'D', 'I', ' ', 'r', '1', ',', '#', '6', '5', '5', '3', '6']) = .error .badImmediate ∧
      decode (chars ['A', 'D', 'D', 'I', ' ', 'r', '9', ',', '#', '1']) = .error .unknownRegister := by decide
theorem test_encode_addr :
    encode (.addr (.s2 (.file .r1) .sr 0) .plain) =
      some (chars ['A', 'D', 'D', 'R', ' ', 'r', '1', ',', ' ', 's', 'r', ',', ' ', '#', '0', 'x', '0', '0', '0', '0']) := by
  decide
theorem test_encode_unspelled :
    encode (.addi (.s1 (.file .r1) 1) ⟨.none, none⟩) = none ∧ encode (.bran .signedLess (chars ['l'])) = none := by decide

/-! ### A small state -/

/-- The parameters of the vectors: bits 7:4 read as stored. -/
def par : Params := { Params.reset with reservedRead := .stored }

/-- `sr`, `r1` and `r2`, everything else as at reset. -/
def st (sr r1 r2 : Word) : State :=
  { State.reset with sr := sr, regs := { RegFile.reset with r1 := r1, r2 := r2 }, params := par }

/-- `sr` and `r1` after an instruction. -/
def srR1 (o : Out) : Option (Word × Word) := (nextOf o).map (fun t => (t.sr, t.regs.r1))

/-- Registers as operands. -/
def r1 : Reg := .file .r1
def r2 : Reg := .file .r2

/-- A line of text. -/
def waitLine : Text := chars ['W', 'A', 'I', 'T']

/-! ### Vectors -/

/-- [V-A4, the upper byte kept]. -/
theorem test_addi_overflow : srR1 (exec (.addi (.s1 r1 1) .plain) (st 0x0F05 0x7FFF 0)) = some (0x0F0A, 0x8000) := by decide
/-- [E7-2]: the trap, `ah` and the flags untouched. -/
theorem test_addi_privileged :
    (nextOf (exec (.addi (.s1 (.file .ah) 5) .plain) (st 0x0100 1 2))).map (fun t => (t.sr, t.regs.ah, t.saved.map (·.sr))) =
      some (0x0000, 0, some 0x0100) := by decide
/-- [V-S2]. -/
theorem test_subi_borrow : srR1 (exec (.subi (.s1 r1 1) .plain) (st 0 0 0)) = some (0x0006, 0xFFFF) := by decide
/-- [V-S4]. -/
theorem test_subi_overflow : srR1 (exec (.subi (.s3 r1 r1 r2) .plain) (st 0 0x7FFF 0xFFFF)) = some (0x000E, 0x8000) := by decide
/-- [V-A8]. -/
theorem test_adci_carry : srR1 (exec (.adci (.s1 r1 0) .plain) (st 0x0004 0xFFFF 0)) = some (0x0005, 0x0000) := by decide
/-- [V-S12]. -/
theorem test_sbci_borrow : srR1 (exec (.sbci (.s1 r1 0) .plain) (st 0x0004 0x8000 0)) = some (0x0008, 0x7FFF) := by decide
/-- [V-S13]: C is the borrow of the exact difference. -/
theorem test_sbci_max : srR1 (exec (.sbci (.s3 r1 r1 r2) .plain) (st 0x0004 0 0xFFFF)) = some (0x0005, 0x0000) := by decide
/-- [E4-2]: the upper byte reads as zero in protected mode, and the flags are then those of the sum. -/
theorem test_addr_read_sr : srR1 (exec (.addr (.s2 r1 .sr 0) .plain) (st 0x4B0A 0 0)) = some (0x4B00, 0x000A) := by decide
/-- [V-W3]: a protected write reaches bits 7 to 0 only, and no automatic update follows. -/
theorem test_addr_write_sr : srR1 (exec (.addr (.s2 .sr r1 0) .plain) (st 0x0100 0xFFFF 0)) = some (0x01FF, 0xFFFF) := by decide
/-- [V-L7]. -/
theorem test_andi_s2 : srR1 (exec (.andi (.s2 r1 r2 0x00F0) .plain) (st 0x0E04 0 0x0FF0)) = some (0x0E00, 0x00F0) := by decide
/-- [E3-seq, step 3]. -/
theorem test_andi_sr : srR1 (exec (.andi (.s1 .sr 0xF1FF) .plain) (st 0x0F00 0 0)) = some (0x0F00, 0) := by decide
/-- [V-L3]. -/
theorem test_orri : srR1 (exec (.orri (.s1 r1 1) .plain) (st 0x000F 0x8000 0)) = some (0x0002, 0x8001) := by decide
/-- [E3-2]. -/
theorem test_orri_sr : srR1 (exec (.orri (.s1 .sr 0x0100) .plain) (st 0x0005 0 0)) = some (0x0105, 0) := by decide
/-- [V-L6]. -/
theorem test_xori : srR1 (exec (.xori (.s1 r1 0xFFFF) .plain) (st 0x000C 0xFFFF 0)) = some (0x0001, 0x0000) := by decide
/-- [V-S10]. -/
theorem test_cmpi : srR1 (exec (.cmpi (.s4 r1 r2) .plain) (st 0 0x0001 0xFFFF)) = some (0x0004, 0x0001) := by decide
/-- [V-S3]. -/
theorem test_cmpr : srR1 (exec (.cmpr (.s4 r1 r2) .plain) (st 0 0x8000 0x0001)) = some (0x0008, 0x8000) := by decide
/-- [V-X6]. -/
theorem test_tsai : srR1 (exec (.tsai (.s1 r1 0xFFFF) .plain) (st 0x0A02 0 0)) = some (0x0A01, 0) := by decide
/-- [V-X2]. -/
theorem test_tsar : srR1 (exec (.tsar (.s4 r1 r2) .plain) (st 0x000C 0x000F 0x00F0)) = some (0x000D, 0x000F) := by decide
/-- [V-X3]. -/
theorem test_tsxi : srR1 (exec (.tsxi (.s1 r1 0x1234) .plain) (st 0x000C 0x1234 0)) = some (0x000D, 0x1234) := by decide
/-- [V-X5]. -/
theorem test_tsxr : srR1 (exec (.tsxr (.s4 r1 r2) .plain) (st 0x0003 0x8000 0)) = some (0x0002, 0x8000) := by decide
/-- [V-M1], with A = 0 and empty memory: `sr` is left alone although the value loaded is zero. -/
theorem test_load : srR1 (exec (.load r1 (chars ['x'])) (st 0x0E0F 7 0)) = some (0x0E0F, 0) := by decide
/-- [V-M2], with A = 0. -/
theorem test_ldea :
    (nextOf (exec (.ldea (.pair .link) (chars ['x'])) (st 0x0005 0 0))).map (fun t => (t.sr, t.pc, t.regs.r1)) =
      some (0x0005, 1, 0) := by decide
/-- A destination that includes `lh` is a privileged write (R111). -/
theorem test_ldea_privileged :
    (nextOf (exec (.ldea (.pair .link) (chars ['x'])) (st 0x0100 0 0))).map (fun t => (t.sr, t.regs.lh)) =
      some (0x0000, 0) := by decide
/-- [E5-7]: `>=` after the compare, taken, `SR` unchanged. -/
theorem test_bran_taken :
    (nextOf (exec (.bran .signedGreaterOrEqual (chars ['l']))
      { st 0x000E 0x7FFF 0xFFFF with labels := [(chars ['l'], 9)] })).map (fun t => (t.sr, t.pc)) = some (0x000E, 9) := by
  decide
/-- [E5-3]: `>` not taken. -/
theorem test_bran_not_taken :
    (nextOf (exec (.bran .unsignedHigher (chars ['l'])) (st 0x0006 3 5))).map (fun t => (t.sr, t.pc)) = some (0x0006, 1) := by
  decide
/-- [V-H1]. -/
theorem test_wait : srR1 (exec .wait (st 0x0005 0 0)) = some (0x1005, 0) := by decide
/-- [V-H5]. -/
theorem test_wait_protected : refusalOf (exec .wait (st 0x0100 0 0)) = some .systemInstructionInProtectedMode := by decide
/-- [V-H3]. -/
theorem test_halt : srR1 (exec .halt (st 0x0005 0 0)) = some (0x2005, 0) := by decide
/-- [V-H4]. -/
theorem test_halt_missing :
    faultOf (exec .halt { st 0x0100 0 0 with params := { par with hasHalt := false } }) = some .haltNotImplemented := by decide
/-- [V-R1]. -/
theorem test_rete :
    (nextOf (exec .rete { st 0x0E00 0 0 with saved := some ⟨0x8105, 5⟩ })).map (fun t => (t.sr, t.pc, t.saved)) =
      some (0x8105, 5, none) := by decide
/-- [V-R2]. -/
theorem test_rete_empty : refusalOf (exec .rete (st 0 0 0)) = some .reteWithoutSavedSr := by decide

/-- [V-T1]. -/
theorem test_trap_high :
    (nextOf (trapEntry (.interrupt .high) 7 (st 0x8305 0 0))).map (fun t => (t.sr, t.saved)) =
      some (0x0205, some ⟨0x8305, 7⟩) := by decide
/-- [V-T2]: taken in the wait state, W cleared before `SR` is saved. -/
theorem test_trap_from_wait :
    (nextOf (step { st 0x1005 0 0 with pending := [.low], env := [.accept] })).map (fun t => (t.sr, t.saved.map (·.sr))) =
      some (0x0005, some 0x0005) := by decide
/-- [V-T6]: masked, stays pending. -/
theorem test_masked_stays :
    (nextOf (step { st 0x0200 0 0 with pending := [.low], env := [.accept] })).map (fun t => (t.sr, t.pending)) =
      some (0x0200, [.low]) := by decide
/-- [P4, step 2t]: the Trace due after a traced instruction is taken before the next one. -/
theorem test_trace_taken :
    (nextOf (step { st 0x8105 0 0 with traceDue := true, text := [.text waitLine] })).map (fun t => (t.sr, t.saved.map (·.sr))) =
      some (0x0005, some 0x8105) := by decide
/-- [V-H6]. -/
theorem test_reset_from_halt : (nextOf (step { st 0x2005 3 4 with env := [.reset] })).map (fun t => (t.sr, t.saved)) =
    some (0x0000, none) := by decide
/-- A store that runs over byte order: big-endian, the high byte first. -/
theorem test_memory_word :
    memWrite Params.reset.mem [] 4 0x1200 = [(4, 0x12)] ∧ memRead Params.reset.mem [(4, 0x12), (5, 0x34)] 4 = 0x1234 := by
  decide

/-! ### Witnesses: for each statement with hypotheses, a state and operands that meet all of them -/

/-- `r1 <- r1 op sr`, reading `sr`. -/
def ops : WriteOps := .s3 r1 r1 .sr

/-- Any update by a shift. -/
def byShift : AluControl := ⟨.shift, some ⟨3⟩⟩

/-- A protected state with r1 and the saved slot full of nothing. -/
def prot : State := st 0x4F0F 5 7

/-- For every update source, in both modes. -/
theorem test_hyps_AdditionsComplete :
    (∀ c ∈ [AluControl.plain, ⟨.none, none⟩, byShift], c.wf = true) ∧ writeDest ops = .file .r1 ∧
      ¬(isHighFile .r1 = true ∧ srP prot.sr = true) ∧ writeReadable prot ops = true ∧
      ¬(isHighFile .r1 = true ∧ srP (st 0 0 0).sr = true) ∧ writeReadable (st 0 0 0) ops = true ∧
      (Instr.adci ops .plain, (srC prot.sr).toNat) ∈
        [(Instr.addi ops .plain, 0), (Instr.addr ops .plain, 0), (Instr.adci ops .plain, (srC prot.sr).toNat)] := by decide

/-- A high member as destination, in supervisor mode. -/
theorem test_hyps_SubtractionsComplete :
    byShift.wf = true ∧ writeDest (.s1 (.file .ah) 5) = .file .ah ∧
      ¬(isHighFile .ah = true ∧ srP (st 0xF 0 0).sr = true) ∧ writeReadable (st 0xF 0 0) (.s1 (.file .ah) 5) = true ∧
      (Instr.sbci (.s1 (.file .ah) 5) byShift, (srC (0xF : Word)).toNat) ∈
        [(Instr.subi (.s1 (.file .ah) 5) byShift, 0), (Instr.sbci (.s1 (.file .ah) 5) byShift, (srC (0xF : Word)).toNat)] := by
  decide

theorem test_hyps_LogicalsComplete :
    AluControl.plain.wf = true ∧ writeDest ops = .file .r1 ∧ ¬(isHighFile .r1 = true ∧ srP prot.sr = true) ∧
      writeReadable prot ops = true ∧
      (Instr.xori ops .plain, (operands .plain (writeRead prot ops)).1 ^^^ (operands .plain (writeRead prot ops)).2) ∈
        [(Instr.andi ops .plain, (operands .plain (writeRead prot ops)).1 &&& (operands .plain (writeRead prot ops)).2),
         (Instr.orri ops .plain, (operands .plain (writeRead prot ops)).1 ||| (operands .plain (writeRead prot ops)).2),
         (Instr.xori ops .plain, (operands .plain (writeRead prot ops)).1 ^^^ (operands .plain (writeRead prot ops)).2)] := by
  refine ⟨by decide, by decide, by decide, by decide, ?_⟩
  simp

theorem test_hyps_ComparesComplete :
    byShift.wf = true ∧ testReadable prot (.s4 r1 .sr) = true ∧
      Instr.cmpr (.s4 r1 .sr) byShift ∈ [Instr.cmpi (.s4 r1 .sr) byShift, Instr.cmpr (.s4 r1 .sr) byShift] := by decide

theorem test_hyps_TestsComplete :
    AluControl.plain.wf = true ∧ testReadable prot (.s1 r1 3) = true ∧
      operands .plain (testRead prot (.s1 r1 3)) = ((5 : Word), (3 : Word)) := by decide

/-- `ORRI sr, #0x0100` in supervisor mode: the list of results holds it, and the write is admitted. -/
theorem test_hyps_AluWritesStatusRegister :
    AluControl.plain.wf = true ∧ writeDest (.s1 .sr 0x0100) = .sr ∧ writeReadable (st 5 0 0) (.s1 .sr 0x0100) = true ∧
      (Instr.orri (.s1 .sr 0x0100) .plain, (0x0105 : Word)) ∈
        writingResults (.s1 .sr 0x0100) .plain (st 5 0 0) (operands .plain (writeRead (st 5 0 0) (.s1 .sr 0x0100))) ∧
      SrWriteAdmitted (st 5 0 0) 0x0105 := by
  refine ⟨by decide, by decide, by decide, by decide, .inr (by decide)⟩

/-- Each branch of the ALU part: W turned on, H turned on, T turned on, and none of them; A is clear, so no load overflows, and `MEM` admits
every address. -/
theorem test_hyps_StatusWriteRefusals :
    srP (st 0 0 0).sr = false ∧
      (∀ v ∈ ([0x1000, 0x2000, 0x8000, 0x4000] : List Word),
        AluControl.plain.wf = true ∧ writeDest (.s1 .sr v) = .sr ∧ writeReadable (st 0 0 0) (.s1 .sr v) = true ∧
          (Instr.orri (.s1 .sr v) .plain, v) ∈
            writingResults (.s1 .sr v) .plain (st 0 0 0) (operands .plain (writeRead (st 0 0 0) (.s1 .sr v)))) ∧
      NoOverflowTrap (st 0 0 0) (addressCalc .load (chars ['x']) (st 0 0 0)) ∧
      admitted par.mem (Config.place (addressOrWrap (addressCalc .load (chars ['x']) (st 0 0 0))))
        (loadBytes par.mem.loadWidth) = true ∧
      NoOverflowTrap (st 0 0 0) (addressCalc .ldea (chars ['x']) (st 0 0 0)) := by
  refine ⟨by decide, fun v _ => ⟨by decide, rfl, rfl, ?_⟩, fun h => absurd h.1 (by decide), rfl,
    fun h => absurd h.1 (by decide)⟩
  have e : operands .plain (writeRead (st 0 0 0) (.s1 .sr v)) = (0, v) := rfl
  rw [e]
  simp [writingResults]

/-- The three refusals and the write of `StatusWriteRefusals` do come. -/
theorem test_status_write_branches :
    refusalOf (exec (.orri (.s1 .sr 0x1000) .plain) (st 0 0 0)) = some .srWriteSetsWOrH ∧
      refusalOf (exec (.orri (.s1 .sr 0x2000) .plain) (st 0 0 0)) = some .srWriteSetsWOrH ∧
      refusalOf (exec (.orri (.s1 .sr 0x8000) .plain)
        { st 0 0 0 with params := { par with hasTrace := false } }) = some .traceNotImplemented ∧
      srR1 (exec (.orri (.s1 .sr 0x4000) .plain) (st 0 0 0)) = some (0x4000, 0) := by decide

theorem test_hyps_AddiShapes : srP (st 0x0E0F 0 0).sr = false := by decide

theorem test_hyps_ProtectedHighSourceRefused :
    srP prot.sr = true ∧ AluControl.plain.wf = true ∧ isHighFile .sh = true ∧
      isHighReg (writeDest (.s2 r1 (.file .sh) 0)) = false ∧ writeSrcA (.s2 r1 (.file .sh) 0) = .reg (.file .sh) ∧
      writeSrcB (.s3 r1 r2 (.file .sh)) = .reg (.file .sh) ∧ testSrcB (.s4 r1 (.file .sh)) = .reg (.file .sh) := by decide

theorem test_hyps_ShiftUpdateNeedsShift : (⟨.shift, none⟩ : AluControl).update = .shift ∧
    (⟨.shift, none⟩ : AluControl).shift = none := by decide

/-- In both modes, with bits 7:4 read as stored. -/
theorem test_hyps_ReadingStatusDisturbsFlags :
    ¬(isHighFile .r1 = true ∧ srP prot.sr = true) ∧ ¬(isHighFile .ah = true ∧ srP (st 0 0 0).sr = true) ∧
      prot.params.reservedRead = .stored := by decide

theorem test_hyps_StatusReadByMode :
    par.reservedRead = .stored ∧ { par with reservedRead := ReservedRead.zero }.reservedRead = .zero ∧
      Params.reset.reservedRead = .draw := by decide

/-- In protected mode, and in supervisor mode with a write that is performed. -/
theorem test_hyps_StatusWriteByMode :
    srP prot.sr = true ∧ srP (st 0 0 0).sr = false ∧ SrWriteAdmitted (st 0 0 0) 0xCFFF :=
  ⟨by decide, by decide, .inr (by decide)⟩

theorem test_hyps_SaveThenRestoreStatus :
    prot.params.reservedRead = .stored ∧ ¬(isHighFile .r1 = true ∧ srP prot.sr = true) := by decide

theorem test_hyps_LoadCompletes :
    ¬(isHighFile .r1 = true ∧ srP (st 0x0F00 0 0).sr = true) ∧
      NoOverflowTrap (st 0x0F00 0 0) (addressCalc .load (chars ['x']) (st 0x0F00 0 0)) ∧
      admitted par.mem (Config.place (addressOrWrap (addressCalc .load (chars ['x']) (st 0x0F00 0 0))))
        (loadBytes par.mem.loadWidth) = true := by
  refine ⟨by decide, fun h => absurd h.1 (by decide), rfl⟩

/-- With empty memory the value loaded is 0, wherever the address lies. -/
theorem test_hyps_LoadIntoStatusRegister :
    NoOverflowTrap (st 0x0E00 0 0) (addressCalc .load (chars ['x']) (st 0x0E00 0 0)) ∧
      admitted par.mem (Config.place (addressOrWrap (addressCalc .load (chars ['x']) (st 0x0E00 0 0))))
        (loadBytes par.mem.loadWidth) = true ∧
      SrWriteAdmitted (st 0x0E00 0 0)
        (memRead par.mem [] (Config.place (addressOrWrap (addressCalc .load (chars ['x']) (st 0x0E00 0 0))))) := by
  refine ⟨fun h => absurd h.1 (by decide), rfl, .inr ?_⟩
  have e : memRead par.mem [] (Config.place (addressOrWrap (addressCalc .load (chars ['x']) (st 0x0E00 0 0)))) = 0 := rfl
  rw [e]
  decide

/-- One register, and a pair in supervisor mode. -/
theorem test_hyps_LdeaCompletes :
    Reg.sr ∉ leaRegs (.pair .link) ∧ (∀ r ∈ leaRegs (.pair .link), ¬(isHighReg r = true ∧ srP (st 5 0 0).sr = true)) ∧
      (∀ r ∈ leaRegs (.reg (.file .ll)), ¬(isHighReg r = true ∧ srP (st 0x0100 0 0).sr = true)) ∧
      NoOverflowTrap (st 5 0 0) (addressCalc .ldea (chars ['x']) (st 5 0 0)) := by
  refine ⟨by decide, by decide, by decide, fun h => absurd h.1 (by decide)⟩

/-- In protected mode, where no write is refused; in supervisor mode, whatever the free value is, where all it could turn on is on. -/
theorem test_hyps_LdeaIntoStatusRegister :
    NoOverflowTrap (st 0x0100 0 0) (addressCalc .ldea (chars ['x']) (st 0x0100 0 0)) ∧
      SrWriteAdmitted (st 0x0100 0 0)
        (Config.addressPart (addressOrWrap (addressCalc .ldea (chars ['x']) (st 0x0100 0 0))) .sr) ∧
      srP (st 0xB000 0 0).sr = false ∧
      NoOverflowTrap (st 0xB000 0 0) (addressCalc .ldea (chars ['x']) (st 0xB000 0 0)) ∧
      SrWriteAdmitted (st 0xB000 0 0)
        (Config.addressPart (addressOrWrap (addressCalc .ldea (chars ['x']) (st 0xB000 0 0))) .sr) :=
  ⟨fun h => absurd h.1 (by decide), .inl (by decide), by decide, fun h => absurd h.1 (by decide),
    .inr ⟨fun _ => by decide, fun _ => by decide, fun _ => .inl (by decide)⟩⟩

/-- For every clause but the free value `Config.addrOverflow`, which may be either: the destinations may be written, A is set for the
first two and clear for the third, and `MEM` admits every address. -/
theorem test_hyps_AddressOverflowRule :
    (st 0x4000 0 0).saved = none ∧ (∀ rd ∈ [r1, .sr, .file .ah], ¬(isHighReg rd = true ∧ srP (st 0x4000 0 0).sr = true)) ∧
      (∀ r ∈ leaRegs (.pair .link), ¬(isHighReg r = true ∧ srP (st 0x4000 0 0).sr = true)) ∧
      srA (st 0x4000 0 0).sr = true ∧ srA (st 0 0 0).sr = false ∧ (∀ k, admitted par.mem k (loadBytes par.mem.loadWidth) = true) :=
  ⟨by decide, by decide, by decide, by decide, by decide, fun _ => rfl⟩

/-- The loaded address itself lies in a hole. -/
theorem test_hyps_UnadmittedAccessFaults :
    ¬(isHighReg r1 = true ∧ srP (st 0 0 0).sr = true) ∧
      NoOverflowTrap (st 0 0 0) (addressCalc .load (chars ['x']) (st 0 0 0)) ∧
      admitted { par.mem with holes := [(Config.place (addressOrWrap (addressCalc .load (chars ['x']) (st 0 0 0))), 1)] }
        (Config.place (addressOrWrap (addressCalc .load (chars ['x']) (st 0 0 0)))) (loadBytes par.mem.loadWidth) =
          false := by
  refine ⟨by decide, fun h => absurd h.1 (by decide), ?_⟩
  simp [admitted, loadBytes, par, Params.reset]

/-- A defined label; the condition holds in one state and not in the other. -/
theorem test_hyps_BranchByCondition :
    labelTarget [(chars ['l'], 9)] (chars ['l']) = some 9 ∧ condTrue (1 : Word) .eq ∧ ¬condTrue (0 : Word) .eq := by
  refine ⟨by decide, ?_, ?_⟩ <;> simp [condTrue]

theorem test_hyps_UndefinedLabel :
    labelTarget [(chars ['l'], 9)] (chars ['m']) = none ∧ condTrue (8 : Word) .overflowSet ∧
      ¬condTrue (0 : Word) .overflowSet := by
  refine ⟨by decide, ?_, ?_⟩ <;> unfold condTrue <;> decide

theorem test_hyps_CompareThenCondition :
    srP (st 0 0x7FFF 0xFFFF).sr = false ∧ Instr.cmpi (.s4 r1 r2) .plain ∈
      [Instr.cmpi (.s4 r1 r2) .plain, Instr.cmpr (.s4 r1 r2) .plain] := by decide

theorem test_hyps_WaitCompletes : srP (st 0x0005 0 0).sr = false := by decide

theorem test_hyps_HaltCompletes : srP (st 0x0005 0 0).sr = false ∧ par.hasHalt = true := by decide

/-- Restoring T and P. -/
theorem test_hyps_ReteCompletes :
    srP (st 0 0 0).sr = false ∧ { st 0 0 0 with saved := some ⟨0x8100, 3⟩ }.saved = some ⟨0x8100, 3⟩ ∧
      (srT (0x8100 : Word) = true → srT (st 0 0 0).sr = true ∨ par.hasTrace = true) := by decide

/-- Every clause has a state. -/
theorem test_hyps_SystemInstructionStops :
    srP prot.sr = true ∧ { par with hasHalt := false }.hasHalt = false ∧ par.hasHalt = true ∧ srP (st 0 0 0).sr = false ∧
      (st 0 0 0).saved = none ∧
      { st 0 0 0 with saved := some ⟨0x8000, 3⟩ }.saved = some ⟨0x8000, 3⟩ ∧ srT (0x8000 : Word) = true ∧
      srT (st 0 0 0).sr = false ∧ { par with hasTrace := false }.hasTrace = false := by decide

/-- A program of one coprocessor operation, at the pc. -/
def coproc (sr opcode : Word) : State := { st sr 0 0 with text := [.coprocessor opcode] }

/-- The last opcode that is not privileged, and the first that is (R143), in both modes. -/
theorem test_hyps_CoprocessorBoundary :
    (∀ c : Word, CpuTurn (coproc 0x0100 c) ∧ (coproc 0x0100 c).text[(coproc 0x0100 c).pc]? = some (.coprocessor c)) ∧
      srH (0x0100 : Word) = false ∧ srW (0x0100 : Word) = false ∧
      ((0x07FF : Word).extractLsb' 8 8).toNat = 7 ∧ ((0x0800 : Word).extractLsb' 8 8).toNat = 8 :=
  ⟨fun _ => ⟨.inl rfl, by simp [coproc, st, State.reset]⟩, by decide, by decide, rfl, rfl⟩

/-- A privileged coprocessor operation in protected mode (R143). -/
theorem test_coprocessor_fault : faultOf (step (coproc 0x0100 0x0800)) = some .privilegedCoprocessorOperation := by decide

/-- Both clauses: an empty and a full slot [V-T5]. -/
theorem test_hyps_TrapEntryEffects :
    prot.saved = none ∧
      refusalOf (trapEntry (.interrupt .nmi) 4 { prot with saved := some ⟨0, 0⟩ }) = some .nestedTrap := by decide

theorem test_hyps_PrivilegedDestinationTraps :
    WellFormed (.addi (.s1 (.file .ah) 5) .plain) = true ∧ srP prot.sr = true ∧
      (∃ r ∈ destinations (.addi (.s1 (.file .ah) 5) .plain), isHighReg r = true) ∧ prot.saved = none := by decide

/-- With a context saved, the second clause. -/
theorem test_privileged_destination_nested :
    refusalOf (exec (.addi (.s1 (.file .ah) 5) .plain) { prot with saved := some ⟨0, 0⟩ }) = some .nestedTrap := by decide

theorem test_hyps_TrapThenReteRestores :
    prot.saved = none ∧ srW prot.sr = false ∧ (srT prot.sr = true → prot.params.hasTrace = true) := by decide

/-- Two takeable requests, and a state in which the one pending request is masked. -/
theorem test_hyps_AcceptanceTakesHighest :
    srH (st 0x0200 0 0).sr = false ∧ (st 0x0200 0 0).saved = none ∧
      (∀ q ∈ [Priority.medium, .nmi], Takeable { st 0x0200 0 0 with pending := [.medium, .nmi], env := [.accept] } q) ∧
      ¬∃ q, Takeable { st 0x0200 0 0 with pending := [.low], env := [.accept] } q := by
  refine ⟨by decide, by decide, ?_, ?_⟩
  · intro q hq
    unfold Takeable
    revert q
    decide
  · rintro ⟨q, hq, -, hm⟩
    cases q <;> revert hq hm <;> decide

/-- The highest of the two is the one taken. -/
theorem test_accept_highest :
    (nextOf (step { st 0x0200 0 0 with
      pending := [.medium, .nmi], env := [.accept], params := { par with vector := { PerTrap.all 0 with nmi := 5, medium := 3 } } })).map
        (fun t => t.pc) = some 5 := by decide

/-- Where the parameter returns to the `WAIT`: an interrupt out of a `WAIT` at 3 returns to 3, one out of a wait state that `RESET_SR`
made returns to the next instruction to execute (R160). -/
theorem test_wait_return :
    (∀ w ∈ [(some 3, 3), (none, 4)], (nextOf (step { st 0x1000 0 0 with
      pc := 4, waitAt := w.1, pending := [.nmi], env := [.accept], params := { par with waitReturn := .same } })).map
        (fun t => (t.saved.map (·.ret), t.waitAt)) = some (some w.2, none)) ∧
      (nextOf (exec .wait { st 0 0 0 with pc := 3 })).map (·.waitAt) = some (some 3) := by decide

theorem test_hyps_HaltedUntilReset :
    srH (st 0x2005 0 0).sr = true ∧ (∀ es, (st 0x2005 0 0).env ≠ .reset :: es) ∧
      step (st 0x2005 0 0) = .next (st 0x2005 0 0) := by
  refine ⟨by decide, fun es => by simp [st, State.reset], rfl⟩

theorem test_hyps_WaitingExecutesNothing :
    srW (st 0x1005 0 0).sr = true ∧ srH (st 0x1005 0 0).sr = false ∧ (st 0x1005 0 0).traceDue = false ∧
      CpuTurn (st 0x1005 0 0) :=
  ⟨by decide, by decide, by decide, .inl rfl⟩

/-- Also in the wait state. -/
theorem test_hyps_DueTraceIsTaken :
    { st 0x9005 0 0 with traceDue := true }.traceDue = true ∧ srH (st 0x9005 0 0).sr = false ∧
      (st 0x9005 0 0).saved = none ∧ CpuTurn { st 0x9005 0 0 with traceDue := true } :=
  ⟨by decide, by decide, by decide, .inl rfl⟩

/-- A traced instruction, and one that is not. -/
theorem test_hyps_TraceAfterEveryInstruction :
    par.hasTrace = true ∧ (st 0x8000 1 1).traceDue = false ∧
      (nextOf (exec (.addi (.s1 r1 1) .plain) (st 0x8000 1 1))).map (·.traceDue) = some true ∧
      (nextOf (exec (.addi (.s1 r1 1) .plain) (st 0 1 1))).map (·.traceDue) = some false := by decide

/-- A program of one line, at the pc. -/
def running : State := { st 0 0 0 with text := [.text waitLine] }

/-- A term without a spelling, `XORI r1, #1` with `u = none`; and an ill-formed one. -/
def unspelled : State := { st 0 0 0 with text := [.term (.xori (.s1 r1 1) ⟨.none, none⟩)] }

theorem test_hyps_StepRunsDecoded :
    CpuTurn running ∧ srH running.sr = false ∧ srW running.sr = false ∧ running.traceDue = false ∧ RunsNext running .wait ∧
      RunsNext unspelled (.xori (.s1 r1 1) ⟨.none, none⟩) :=
  ⟨.inl rfl, by decide, by decide, by decide, .inl ⟨waitLine, by decide, by decide⟩, .inr (by decide)⟩

/-- The term runs: with `u = none` the flags stay (R81). -/
theorem test_unspelled_term : (nextOf (step unspelled)).map (fun t => (t.sr, t.regs.r1)) = some (0, 1) := by decide

/-- The kinds of line: none, blank, no instruction [V-N2], an ill-formed term. -/
theorem test_hyps_StepOnOtherLines :
    CpuTurn (st 0 0 0) ∧ (st 0 0 0).text[(st 0 0 0).pc]? = none ∧ decode (chars [' ', ';', 'x']) = .error .noInstruction ∧
      decode (chars ['S', 'U', 'B', 'R', ' ', 'r', '1', ',', ' ', 'r', '2']) = .error .unknownMnemonic ∧
      { st 0 0 0 with text := [.text (chars [' ', ';', 'x'])] }.text[(st 0 0 0).pc]? = some (.text (chars [' ', ';', 'x'])) ∧
      { st 0 0 0 with text := [.term (.bran .eq [])] }.text[(st 0 0 0).pc]? = some (.term (.bran .eq [])) ∧
      WellFormed (.bran .eq []) = false :=
  ⟨.inl rfl, by decide, by decide, by decide, by decide, by decide, by decide⟩

theorem test_hyps_RequestsArePending :
    { st 0 0 0 with env := [.raise .other] }.env = .raise .other :: [] ∧
      { st 0 0 0 with env := [.withdraw .nmi] }.env = .withdraw .nmi :: [] := by decide

theorem test_hyps_PlacedInstructionRuns : decodeTableWord 32 0x54494157 = some .wait := by decide

/-- The first part, and the second: a halted state that a reset event leaves. -/
theorem test_hyps_ResetLeavesHalt :
    { st 0x2005 0 0 with env := [.reset] }.env = .reset :: [] ∧ srH (st 0x2005 0 0).sr = true ∧
      (nextOf (step { st 0x2005 0 0 with env := [.reset] })).map (fun t => srH t.sr) = some false := by decide

theorem test_hyps_ResetEventValues : { st 0xA005 3 4 with env := [.reset, .proceed] }.env = .reset :: [.proceed] := by decide

theorem test_hyps_MemoryReadsLastWrite : Memory.wf [(4, 0x12), (7, 0x01)] = true ∧ Memory.wf [] = true := by decide

theorem test_hyps_StepKeepsInvariant :
    MachineInv running ∧ (nextOf (step running)).map (fun t => t.sr) = some 0x1000 := by
  refine ⟨?_, by decide⟩
  unfold MachineInv
  decide

theorem test_hyps_StepStoresNothing : ∃ t, step running = .next t := ⟨_, rfl⟩

/-- A protected program of one line that completes. -/
def running' : State := { st 0x0100 0 0 with
  text := [.text (chars ['A', 'D', 'D', 'I', ' ', 'r', '1', ',', '#', '1'])] }

theorem test_hyps_ProtectedModeKeepsSegments :
    srP running'.sr = true ∧ (∀ es, running'.env ≠ .reset :: es) ∧ isHighFile .sh = true ∧
      (nextOf (step running')).map (fun t => t.regs.r1) = some 1 := by
  refine ⟨by decide, fun es => by simp [running', st, State.reset], by decide, by decide⟩

/-- Both clauses: into supervisor mode by a trap, into protected mode by a write of `sr`. -/
theorem test_hyps_ModeChanges :
    (nextOf (step { running' with
      text := [.text (chars ['A', 'D', 'D', 'I', ' ', 'a', 'h', ',', '#', '1'])] })).map (fun t => srP t.sr) = some false ∧
      srP running'.sr = true ∧ srP (st 0 0 0).sr = false ∧
      (nextOf (step { st 0 0 0 with
        text := [.text (chars ['O', 'R', 'R', 'I', ' ', 's', 'r', ',', '#', '2', '5', '6'])] })).map (fun t => srP t.sr) =
        some true := by decide

theorem test_hyps_ProtectedModeKeepsUpperByte :
    srP (st 0x4100 0 0).sr = true ∧ srR1 (exec (.andi (.s1 .sr 0) .plain) (st 0x4100 0 0)) = some (0x4100, 0) := by decide

/-- A supervisor write of the upper byte. -/
theorem test_hyps_AluKeepsUpperByte :
    isAlu (.orri (.s1 .sr 0x4000) .plain) = true ∧
      srR1 (exec (.orri (.s1 .sr 0x4000) .plain) (st 0 0 0)) = some (0x4000, 0) ∧
      (∃ j, 8 ≤ j ∧ (0x4000 : Word).getLsbD j ≠ (st 0 0 0).sr.getLsbD j) :=
  ⟨by decide, by decide, 14, by decide, by decide⟩

/-- Two protected states that differ in A, the mask and T. -/
theorem test_hyps_ProtectedModeIsBlind :
    isAlu (.addr (.s2 r1 .sr 0) .plain) = true ∧
      (∀ r ∈ destinations (.addr (.s2 r1 .sr 0) .plain), isHighReg r = false) ∧ srP (st 0x0105 0 0).sr = true ∧
      srP (st 0xCF05 0 0).sr = true ∧ SameButUpperByte (st 0x0105 0 0) (st 0xCF05 0 0) ∧
      srR1 (exec (.addr (.s2 r1 .sr 0) .plain) (st 0x0105 0 0)) = some (0x0100, 5) := by
  refine ⟨by decide, by decide, by decide, by decide, ⟨rfl, rfl, rfl, rfl, rfl, rfl, rfl, by decide⟩, by decide⟩

theorem test_hyps_DecodeEncode :
    WellFormed (.bran .unsignedHigher (chars ['l'])) = true ∧
      encode (.bran .unsignedHigher (chars ['l'])) = some (chars ['B', 'R', 'A', 'N', '|', '>', ' ', 'l']) := by decide

theorem test_hyps_DecodeIsSound : decode waitLine = .ok .wait := by decide

end Sys2Proof.Tests
end

section
/-! SUPPORT and settled statements of 10_state.md. This part: `sr` as an operand, the mask, pending requests, reset. -/

namespace Sys2Proof.Machine

/-- Settles O15: the operand read of `sr` bit by bit, then `RESERVED_READ` in each of its three readings. -/
theorem statusReadByMode : Obligations.StatusReadByMode := by
  intro p k sr
  refine ⟨fun j hj => ?_, fun j hj => ?_, fun hp j h4 h8 => ?_, fun hp j h4 h8 => ?_, fun hp j hj => ?_⟩
  · rw [getLsbD_readSr, if_pos hj]
  · rw [getLsbD_readSr, if_neg (by omega), if_neg (by omega)]
    rfl
  · have hlt : j - 4 < 4 := by omega
    have hj : 4 + (j - 4) = j := by omega
    simp [getLsbD_readSr, reservedBits, hp, h8, Nat.not_lt.mpr h4, hlt, hj]
  · simp [getLsbD_readSr, reservedBits, hp, h8, Nat.not_lt.mpr h4]
  · rw [getLsbD_readSr, if_neg (by omega), if_pos (by omega)]
    simp [reservedBits, hp]

/-- A write of `sr` that R29 and R153 do not refuse replaces `sr` by the masked value and nothing else (R26). -/
theorem writeReg_sr_of_admitted {s : State} {v : Word}
    (h : srWriteRefusal s.params s.sr (maskedWrite s.sr v) = none) :
    writeReg .sr v s = .ok { s with sr := maskedWrite s.sr v } := by
  simp [writeReg, writeSr, h]

/-- A write of `sr` that R29 or R153 refuses is answered by that refusal. -/
theorem writeReg_sr_of_refused {s : State} {v : Word} {e : Refusal}
    (h : srWriteRefusal s.params s.sr (maskedWrite s.sr v) = some e) : writeReg .sr v s = .error e := by
  simp [writeReg, writeSr, h]

/-- No protected-mode write of `sr` is refused: it reaches bits 7 to 0 only (R26). -/
theorem srWriteRefusal_protected (p : Params) {sr : Word} (h : srP sr = true) (v : Word) :
    srWriteRefusal p sr (maskedWrite sr v) = none :=
  (writeSr_ok (writeSr_protected p h v)).2

/-- Settles O16, by the masked write bit by bit; in supervisor mode the premise is the exact condition of R29 and R153. -/
theorem statusWriteByMode : Obligations.StatusWriteByMode := by
  refine fun s v => ⟨fun hp => ?_, fun hp hadm => ?_⟩
  · refine ⟨_, writeReg_sr_of_admitted (srWriteRefusal_protected s.params hp v), fun j hj => ?_, fun j hj => ?_, rfl⟩
    · exact (getLsbD_maskedWrite s.sr v j).trans (if_neg (by omega))
    · exact (getLsbD_maskedWrite s.sr v j).trans (if_pos ⟨hp, hj⟩)
  · have hbits := hadm.resolve_left (by simp [hp])
    have hv := maskedWrite_supervisor hp v
    rw [writeReg_sr_of_admitted (hv.symm ▸ srWriteRefusal_none_iff.mpr hbits), hv]

/-- The interrupt mask as the number its three bits write (R19). -/
theorem srMask_toNat (sr : Word) :
    (srMask sr).toNat = 4 * (sr.getLsbD 11).toNat + 2 * (sr.getLsbD 10).toNat + (sr.getLsbD 9).toNat := by
  have hbits : ∀ m : BitVec 3, m.toNat = 4 * (m.getLsbD 2).toNat + 2 * (m.getLsbD 1).toNat + (m.getLsbD 0).toNat := by
    decide
  rw [hbits, srMask]
  simp

/-- Settles O36: the three thresholds of R20 on the mask as a number. -/
theorem interruptMaskTable : Obligations.InterruptMaskTable := by
  intro sr
  rw [← srMask_toNat]
  exact ⟨decide_eq_true_iff, decide_eq_true_iff, decide_eq_true_iff, Iff.rfl, rfl⟩

/-- A step at an event that raises a request (R35). -/
theorem step_raise {s : State} {q : Priority} {es : List EnvEvent} (h : s.env = .raise q :: es) :
    step s = .next (raiseRequest q (dropEvent s)) := by
  simp [step, boundary, dropEvent, h]

/-- A step at an event that withdraws a request (R35). -/
theorem step_withdraw {s : State} {q : Priority} {es : List EnvEvent} (h : s.env = .withdraw q :: es) :
    step s = .next (withdrawRequest q (dropEvent s)) := by
  simp [step, boundary, dropEvent, h]

/-- A priority exists unless it is `other` on an implementation without `LEVEL4` (R154). -/
theorem priorityExists_iff {p : Params} {q : Priority} :
    priorityExists p q = true ↔ (q = .other → p.level4 = true) := by
  cases q <;> simp [priorityExists]

/-- What is pending after a request is raised (R35, R154). -/
theorem mem_raiseRequest_pending {p q : Priority} {s : State} :
    p ∈ (raiseRequest q s).pending ↔ p ∈ s.pending ∨ (p = q ∧ (q = .other → s.params.level4 = true)) := by
  rw [← priorityExists_iff]
  unfold raiseRequest
  split
  next he => simp [he]
  next he => simp [he]

/-- Settles O44: the two events by their steps; raising adds one kind of request, withdrawing erases one of its occurrences. -/
theorem requestsArePending : Obligations.RequestsArePending := by
  refine fun s q es => ⟨fun he => ?_, fun he => ?_⟩
  · refine ⟨_, step_raise he, fun p => mem_raiseRequest_pending, ?_⟩
    rw [raiseRequest_eq]
    rfl
  · refine ⟨_, step_withdraw he, fun p => ?_, rfl⟩
    have hcount : (s.pending.erase q).count p = s.pending.count p - if q == p then 1 else 0 := List.count_erase
    simpa [dropEvent, eq_comm (a := q)] using hcount

/-- The status word that the reset parameters give is that of `State.reset` (R181, log 6). -/
theorem resetSr_reset : resetSr Params.reset = State.reset.sr := by decide

/-- Settles O48, by evaluation of the reset state. -/
theorem resetState : Obligations.ResetState := by
  refine ⟨by decide, rfl, rfl, rfl, State.reset_mem_wf, ?_⟩
  have hsr : resetSr State.reset.params = 0 := resetSr_reset
  rw [resetCpu, hsr]
  rfl

/-- Settles O50: memory is empty, nothing is saved, and the CPU neither is halted, nor has a `Trace` due, nor waits. -/
theorem resetMeetsInvariant : Obligations.ResetMeetsInvariant := by
  refine ⟨State.reset_mem_wf, rfl, fun hh => ?_, fun hd => ?_, fun hw => ?_⟩
  · exact absurd hh (by decide)
  · exact absurd hd (by decide)
  · exact absurd hw (by decide)

end Sys2Proof.Machine
end

section
/-! SUPPORT and settled statements of 10_state.md. This part: the ALU template where it stops, and each ALU instruction by its
template. -/

namespace Sys2Proof.Machine

/-! ### Where the ALU template stops (R80 steps 2, 3 and 6) -/

/-- Only a high member in protected mode is a privileged destination (R32). -/
theorem writeViolates_of_not_high (s : State) {r : Reg} (h : isHighReg r = false) : writeViolates s r = false := by
  simp [writeViolates, h]

/-- In protected mode a high member is a privileged destination (R32). -/
theorem writeViolates_of_high {s : State} {r : Reg} (hp : srP s.sr = true) (h : isHighReg r = true) :
    writeViolates s r = true := by
  simp [writeViolates, h, hp]

/-- In protected mode a high member is no source (R32). -/
theorem sourceReadable_high {s : State} {g : FileReg} (hp : srP s.sr = true) (hg : isHighFile g = true) :
    sourceReadable s (.reg (.file g)) = false := by
  simp [sourceReadable, readable, isHighReg, hg, hp]

/-- A writing ALU instruction that may not read its sources is refused, its destination once admitted (R80 steps 2 and 3). -/
theorem execWrite_unreadable {op : AluOp} {o : WriteOps} {c : AluControl} {s : State} (hc : c.wf = true)
    (hv : writeViolates s (writeDest o) = false) (hr : writeReadable s o = false) :
    execWrite op o c s = .refused .protectedReadOfHighAddressRegister := by
  simp [execWrite, hc, hv, hr]

/-- A compare or test instruction that may not read its sources is refused (R80 step 3). -/
theorem execFlagsOnly_unreadable {op : AluOp} {o : TestOps} {c : AluControl} {s : State} (hc : c.wf = true)
    (hr : testReadable s o = false) : execFlagsOnly op o c s = .refused .protectedReadOfHighAddressRegister := by
  simp [execFlagsOnly, hc, hr]

/-- A writing ALU instruction into `sr` is refused where R29 or R153 refuses the write. -/
theorem execWrite_sr_refused {op : AluOp} {o : WriteOps} {c : AluControl} {s : State} {e : Refusal} (hc : c.wf = true)
    (hd : writeDest o = .sr) (hr : writeReadable s o = true)
    (he : srWriteRefusal s.params s.sr (maskedWrite s.sr (writeResult op o c s).value) = some e) :
    execWrite op o c s = .refused e := by
  have hw : writeReg .sr (writeResult op o c s).value (countDraws s) = .error e := writeReg_sr_of_refused he
  simp [execWrite, hc, hr, hd, commitWrite, hw, writeViolates_of_not_high s (r := .sr) rfl]

/-! ### Each ALU instruction by its template -/

/-- A writing ALU instruction is the template of R80 for some operation, with the operands' destination its only one. -/
theorem writingInstrs_exec {i : Instr} {o : WriteOps} {c : AluControl} (h : i ∈ writingInstrs o c) :
    destinations i = [writeDest o] ∧ WellFormed i = c.wf ∧ ∃ op, ∀ s, exec i s = execWrite op o c s := by
  simp only [writingInstrs, List.mem_cons, List.not_mem_nil, or_false] at h
  rcases h with rfl | rfl | rfl | rfl | rfl | rfl | rfl | rfl <;> exact ⟨rfl, rfl, _, fun _ => rfl⟩

/-- A compare or test instruction is the template of R80 that writes nothing but flags, for some operation. -/
theorem readingInstrs_exec {i : Instr} {o : TestOps} {c : AluControl} (h : i ∈ readingInstrs o c) :
    destinations i = [] ∧ ∃ op, ∀ s, exec i s = execFlagsOnly op o c s := by
  simp only [readingInstrs, List.mem_cons, List.not_mem_nil, or_false] at h
  rcases h with rfl | rfl | rfl | rfl | rfl | rfl <;> exact ⟨rfl, _, fun _ => rfl⟩

/-- The fourteen ALU instructions are the writing ones and the compares and tests (R76, R87). -/
theorem isAlu_cases {i : Instr} (h : isAlu i = true) :
    (∃ o c, i ∈ writingInstrs o c) ∨ ∃ o c, i ∈ readingInstrs o c := by
  cases i with
  | addi o c | subi o c | adci o c | sbci o c | addr o c | andi o c | orri o c | xori o c =>
    exact .inl ⟨o, c, by simp [writingInstrs]⟩
  | cmpi o c | cmpr o c | tsai o c | tsar o c | tsxi o c | tsxr o c => exact .inr ⟨o, c, by simp [readingInstrs]⟩
  | load | ldea | bran | wait | halt | rete => cases h

/-- Settles O12: with a source that may not be read the template stops before the operation, for all fourteen instructions. -/
theorem protectedHighSourceRefused : Obligations.ProtectedHighSourceRefused := by
  intro s c r hp hc hr
  have hsrc := sourceReadable_high hp hr
  refine ⟨fun o hd hsource i hi => ?_, fun o hsource i hi => ?_⟩
  · obtain ⟨-, -, op, hexec⟩ := writingInstrs_exec hi
    rw [hexec]
    refine execWrite_unreadable hc (writeViolates_of_not_high s hd) ?_
    rcases hsource with e | e <;> simp [writeReadable, e, hsrc]
  · obtain ⟨-, op, hexec⟩ := readingInstrs_exec hi
    rw [hexec]
    refine execFlagsOnly_unreadable hc ?_
    rcases hsource with e | e <;> simp [testReadable, e, hsrc]

/-- Every instruction with a privileged destination does nothing in protected mode but raise `PrivilegeViolation` (R151). -/
theorem exec_privileged_destination {i : Instr} {s : State} (hw : WellFormed i = true) (hp : srP s.sr = true)
    (hd : ∃ r ∈ destinations i, isHighReg r = true) : exec i s = raisePrivilegeViolation s := by
  obtain ⟨r, hr, hhigh⟩ := hd
  have hv : writeViolates s r = true := writeViolates_of_high hp hhigh
  by_cases ha : isAlu i = true
  · rcases isAlu_cases ha with ⟨o, c, hi⟩ | ⟨o, c, hi⟩
    · obtain ⟨hdest, hwf, op, hexec⟩ := writingInstrs_exec hi
      rw [hdest, List.mem_singleton] at hr
      rw [hexec, execWrite_violation (hwf ▸ hw) (hr ▸ hv)]
    · rw [(readingInstrs_exec hi).1] at hr
      cases hr
  · cases i with
    | load rd a =>
      obtain rfl : r = rd := List.mem_singleton.mp hr
      exact if_pos hv
    | ldea d a => exact if_pos (List.any_eq_true.mpr ⟨r, hr, hv⟩)
    | bran | wait | halt | rete => cases hr
    | _ => exact absurd rfl ha

/-- Settles O34: the instruction comes to `raisePrivilegeViolation`, which is trap entry, with the slot full or empty. -/
theorem privilegedDestinationTraps : Obligations.PrivilegedDestinationTraps := by
  intro i s hw hp hd
  rw [exec_privileged_destination hw hp hd]
  cases hs : s.saved with
  | some c => exact trapEntry_of_full _ _ hs
  | none =>
    have ht := trapEntry_of_empty .privilegeViolation (returnAt s.params.privilegeReturn s.pc) hs
    exact ⟨_, ht, trapEntry_taken ht, rfl, rfl, rfl⟩

/-! ### The results of the writing instructions -/

/-- The result of an addition as a word (R82). -/
theorem aluAdd_value (a b : Word) (cin : Bool) : (aluAdd a b cin).value = a + b + if cin then 1 else 0 := by
  apply BitVec.eq_of_toNat_eq
  cases cin <;> simp [aluAdd]

/-- A word of a difference of integers is the difference of the words: how R83's exact difference becomes a word. -/
theorem ofInt_sub (x y : Int) : BitVec.ofInt 16 (x - y) = BitVec.ofInt 16 x - BitVec.ofInt 16 y := by
  rw [Int.sub_eq_add_neg, BitVec.ofInt_add, BitVec.ofInt_neg, ← BitVec.sub_eq_add_neg]

/-- The result of a subtraction as a word (R83). -/
theorem aluSub_value (a b : Word) (bin : Bool) : (aluSub a b bin).value = a - b - if bin then 1 else 0 := by
  cases bin <;> simp [aluSub, ofInt_sub]

/-- The operands the template works on are those the statements name (R80 step 3, R102). -/
theorem aluOperands_write (s : State) (o : WriteOps) (c : AluControl) :
    aluOperands s c (writeSrcA o) (writeSrcB o) = operands c (writeRead s o) := by
  unfold aluOperands shifted operands
  cases c.shift <;> rfl

/-- Each writing instruction is the template of an operation whose result is the one the spec gives it (R88 to R95). -/
theorem writingResults_exec {o : WriteOps} {c : AluControl} {s : State} {e : Instr × Word}
    (h : e ∈ writingResults o c s (operands c (writeRead s o))) :
    ∃ op, exec e.1 s = execWrite op o c s ∧ (writeResult op o c s).value = e.2 := by
  simp only [writingResults, List.mem_cons, List.not_mem_nil, or_false] at h
  rcases h with rfl | rfl | rfl | rfl | rfl | rfl | rfl | rfl <;> refine ⟨_, rfl, ?_⟩ <;>
    simp [writeResult, aluOperands_write, aluAdd_value, aluSub_value, aluLogical, carryWord, flagsOf]

end Sys2Proof.Machine
end

section
/-! SUPPORT and settled statements of 10_state.md. This part: what a supervisor write of `sr` comes to, for the ALU, LOAD and LDEA. -/

namespace Sys2Proof.Machine

/-- The three outcomes of R29 and R153 from the one function that decides them. -/
theorem srWriteOutcome_of_refusal {s : State} {v : Word} {o : Out}
    (hrefused : ∀ e, srWriteRefusal s.params s.sr v = some e → o = .refused e)
    (hdone : srWriteRefusal s.params s.sr v = none → ∃ t, o = .next t ∧ t.sr = v) : SrWriteOutcome s v o := by
  unfold SrWriteOutcome
  split
  next hwh => exact hrefused _ (srWriteRefusal_wh (hwh.imp And.symm And.symm))
  next hwh =>
  have hwh' : ¬((srW s.sr = false ∧ srW v = true) ∨ (srH s.sr = false ∧ srH v = true)) :=
    fun h => hwh (h.imp And.symm And.symm)
  split
  next ht =>
    obtain ⟨hnew, hold, hparam⟩ := ht
    exact hrefused _ (srWriteRefusal_trace hwh' ⟨hold, hnew⟩ hparam)
  next ht =>
    refine hdone (srWriteRefusal_none_iff.mpr ⟨fun h => ?_, fun h => ?_, fun h => ?_⟩)
    · by_contra hc; exact hwh (.inl ⟨h, by simpa using hc⟩)
    · by_contra hc; exact hwh (.inr ⟨h, by simpa using hc⟩)
    · by_contra hc
      simp only [not_or, Bool.not_eq_true] at hc
      exact ht ⟨h, hc⟩

/-- What a writing ALU instruction into `sr` comes to in supervisor mode (R29, R153, R86). -/
theorem execWrite_sr_outcome {op : AluOp} {o : WriteOps} {c : AluControl} {s : State} (hp : srP s.sr = false)
    (hc : c.wf = true) (hd : writeDest o = .sr) (hr : writeReadable s o = true) :
    SrWriteOutcome s (writeResult op o c s).value (execWrite op o c s) := by
  have hv := maskedWrite_supervisor hp (writeResult op o c s).value
  refine srWriteOutcome_of_refusal (fun e he => ?_) (fun hn => ?_)
  · exact execWrite_sr_refused hc hd hr (hv.symm ▸ he)
  · exact ⟨_, execWrite_sr hc hd hr (hv.symm ▸ hn), hv⟩

/-! ### The loads -/

/-- The model's address is the one the statements name: the pair's segment, and the offset, wrapped on overflow (R50, R51). -/
theorem effectiveAddress_eq (k : AddressCalc) : effectiveAddress k = addressOrWrap k := by
  unfold effectiveAddress baseAddress addressOrWrap wrappedAddress plainAddress segmentOf offsetOf
  cases Config.addrPair k.operand <;> split <;> rfl

theorem overflowTraps_eq_false_iff {s : State} {k : AddressCalc} : overflowTraps s k = false ↔ NoOverflowTrap s k := by
  rw [← Bool.not_eq_true, overflowTraps, Bool.and_eq_true]
  rfl

/-- A `LOAD` that nothing stops before the write is its write, then completion (R110 steps 6 and 7). -/
theorem execLoad_of_write {rd : Reg} {a : AddrOperand} {s : State} (hv : writeViolates s rd = false)
    (ho : overflowTraps s (addressCalc .load a s) = false) (ha : loadAdmitted a s = true) :
    (∀ u, writeReg rd (loadedValue a s) s = .ok u → execLoad rd a s = complete s (s.pc + 1) u) ∧
      ∀ e, writeReg rd (loadedValue a s) s = .error e → execLoad rd a s = .refused e :=
  ⟨fun u hu => by simp [execLoad, hv, ho, ha, hu], fun e he => by simp [execLoad, hv, ho, ha, he]⟩

/-- An `LDEA` into one register that nothing stops before the write is its write, then completion (R111). -/
theorem execLdea_reg_of_write {r : Reg} {a : AddrOperand} {s : State} (hv : writeViolates s r = false)
    (ho : overflowTraps s (addressCalc .ldea a s) = false) :
    (∀ u, writeReg r (Config.addressPart (effectiveAddress (addressCalc .ldea a s)) r) s = .ok u →
        execLdea (.reg r) a s = complete s (s.pc + 1) u) ∧
      ∀ e, writeReg r (Config.addressPart (effectiveAddress (addressCalc .ldea a s)) r) s = .error e →
        execLdea (.reg r) a s = .refused e :=
  ⟨fun u hu => by simp [execLdea, leaRegs, writeParts, hv, ho, hu],
    fun e he => by simp [execLdea, leaRegs, writeParts, hv, ho, he]⟩

/-- What an instruction comes to in supervisor mode whose last act is the write of `v` to `sr` (R29, R112). -/
theorem srWriteOutcome_of_write {s : State} {v : Word} {o : Out} (hp : srP s.sr = false)
    (hok : ∀ u, writeReg .sr v s = .ok u → o = complete s (s.pc + 1) u)
    (herr : ∀ e, writeReg .sr v s = .error e → o = .refused e) : SrWriteOutcome s v o := by
  have hv := maskedWrite_supervisor hp v
  refine srWriteOutcome_of_refusal (fun e he => ?_) (fun hn => ?_)
  · exact herr e (writeReg_sr_of_refused (hv.symm ▸ he))
  · exact ⟨_, hok _ (writeReg_sr_of_admitted (hv.symm ▸ hn)), hv⟩

/-- Settles O10: ALU, LOAD and LDEA each end in the one write of `sr` whose outcome R29 and R153 decide. -/
theorem statusWriteRefusals : Obligations.StatusWriteRefusals := by
  intro s hp
  have hv : writeViolates s .sr = false := writeViolates_of_not_high s rfl
  refine ⟨fun o c hc hd hr e he => ?_, fun a ho ha => ?_, fun a ho => ?_⟩
  · obtain ⟨op, hexec, hvalue⟩ := writingResults_exec he
    rw [hexec, ← hvalue]
    exact execWrite_sr_outcome hp hc hd hr
  · rw [← effectiveAddress_eq] at ha ⊢
    obtain ⟨hok, herr⟩ := execLoad_of_write hv (overflowTraps_eq_false_iff.mpr ho) ha
    exact srWriteOutcome_of_write hp hok herr
  · rw [← effectiveAddress_eq]
    obtain ⟨hok, herr⟩ := execLdea_reg_of_write hv (overflowTraps_eq_false_iff.mpr ho)
    exact srWriteOutcome_of_write hp hok herr

end Sys2Proof.Machine
end

section
/-! SUPPORT and settled statements of 10_state.md. This part: protected mode keeps the memory segments. -/

namespace Sys2Proof.Machine

/-- The high members of the four address register pairs are in `t` what they are in `s` (R18). -/
def SameHigh (s t : State) : Prop := ∀ g, isHighFile g = true → t.regs.get g = s.regs.get g

theorem sameHigh_of_regs_eq {s t : State} (h : t.regs = s.regs) : SameHigh s t := fun g _ => by rw [h]

/-- A trap writes no register (R161). -/
theorem trapEntry_regs {k : TrapKind} {ret : PC} {s t : State} (h : trapEntry k ret s = .next t) : t.regs = s.regs := by
  obtain ⟨-, rfl⟩ := trapEntry_next h
  rfl

/-- The `Trace` exception writes no register (R153, R161). -/
theorem takeTrace_regs {s t : State} (h : takeTrace s = .next t) : t.regs = s.regs :=
  trapEntry_regs (s := { s with traceDue := false }) h

/-- No instruction started in protected mode changes a high member: as a destination it is a privilege violation (R18, R32). -/
theorem exec_protected_sameHigh {i : Instr} {s t : State} (hp : srP s.sr = true) (h : exec i s = .next t) :
    SameHigh s t := by
  cases exec_next h with
  | trap ht =>
    rcases ht with ht | ht
    · exact sameHigh_of_regs_eq (trapEntry_regs ht)
    · exact sameHigh_of_regs_eq (trapEntry_regs ht)
  | ordinary ho =>
    refine fun g hg => ho.regs g fun hmem => ?_
    have hviolates : writeViolates s (.file g) = true := writeViolates_of_high hp hg
    rw [ho.allowed _ hmem] at hviolates
    cases hviolates
  | wait _ hs => rw [hs] at hp; cases hp
  | halt _ hs => rw [hs] at hp; cases hp
  | rete _ hs => rw [hs] at hp; cases hp

/-- A coprocessor operation in protected mode leaves the high members (R18, R57; the model's choice, log 29). -/
theorem coprocessorOperation_protected_sameHigh {c : Word} {s t : State} (hp : srP s.sr = true)
    (h : coprocessorOperation c s = .next t) : SameHigh s t := by
  obtain ⟨-, f, -, rfl⟩ := coprocessorOperation_next h
  intro g hg
  simp [hp, RegFile.get_keepHigh, hg]

/-- No step in protected mode but a reset changes a high member (R18). -/
theorem step_protected_sameHigh {s t : State} (hp : srP s.sr = true) (hreset : ∀ es, s.env ≠ .reset :: es)
    (h : step s = .next t) : SameHigh s t := by
  cases step_next h with
  | raised q es _ ht => subst ht; exact sameHigh_of_regs_eq (raiseRequest_regs q _)
  | withdrawn q es _ ht => subst ht; exact sameHigh_of_regs_eq rfl
  | reset es he => exact absurd he (hreset es)
  | idle es ht => subst ht; exact sameHigh_of_regs_eq rfl
  | blank es ht => subst ht; exact sameHigh_of_regs_eq rfl
  | interrupt es _ q ret ht => exact sameHigh_of_regs_eq (trapEntry_regs ht :)
  | trace es _ ht => exact sameHigh_of_regs_eq (takeTrace_regs ht :)
  | instr es _ _ _ i line _ _ ht => exact exec_protected_sameHigh (s := { s with env := es }) hp ht
  | coprocessor es _ _ _ c line _ _ ht => exact coprocessorOperation_protected_sameHigh (s := { s with env := es }) hp ht

/-- The segment part the statements name is the high member of the operand's pair (R50). -/
theorem segmentOf_eq (k : AddressCalc) : segmentOf k = k.regs.get (pairHigh (Config.addrPair k.operand)) := by
  unfold segmentOf
  cases Config.addrPair k.operand <;> rfl

/-- Settles O53: the high members stay by the case analysis of a step, and the segment part of an address is one of them. -/
theorem protectedModeKeepsSegments : Obligations.ProtectedModeKeepsSegments := by
  intro s t hp hreset h
  have hsame := step_protected_sameHigh hp hreset h
  refine ⟨hsame, fun k a => ?_⟩
  rw [segmentOf_eq, effectiveAddress_segment]
  exact hsame _ (isHighFile_pairHigh _)

end Sys2Proof.Machine
end

section
/-! SUPPORT and settled statements of 10_state.md. This part: protected mode cannot see bits 15 to 8 of `sr`. Whatever an ALU
instruction or a branch takes from the state is the same in two protected states that agree below bit 8. -/

namespace Sys2Proof.Machine

/-- The condition flags are among the bits both states agree on. -/
theorem SameButUpperByte.flagsOf_eq {s s' : State} (h : SameButUpperByte s s') : flagsOf s'.sr = flagsOf s.sr := by
  obtain ⟨-, -, -, -, -, -, -, hlow⟩ := h
  simp only [flagsOf, srZ, srN, srC, srV, hlow 0 (by decide), hlow 1 (by decide), hlow 2 (by decide), hlow 3 (by decide)]

/-- The automatic update takes of `sr` its flags only, so it keeps two status words alike below bit 8 (R80). -/
theorem autoUpdate_low_congr {sr sr' : Word} (hlow : ∀ j, j < 8 → sr'.getLsbD j = sr.getLsbD j)
    (hflags : flagsOf sr' = flagsOf sr) (c : AluControl) (a b : Word) (f : Flags) (j : Nat) (hj : j < 8) :
    (autoUpdate c a b f sr').getLsbD j = (autoUpdate c a b f sr).getLsbD j := by
  unfold autoUpdate
  split <;> simp only [getLsbD_withFlags, hflags, hlow j hj]

/-- The operand read of `sr` in protected mode takes of it bits 7 to 0 only (R25). -/
theorem readSr_protected_congr {sr sr' : Word} (hp : srP sr = true) (hp' : srP sr' = true)
    (hlow : ∀ j, j < 8 → sr'.getLsbD j = sr.getLsbD j) (p : Params) (k : Nat) : readSr p k sr' = readSr p k sr := by
  have hfour : sr'.extractLsb' 4 4 = sr.extractLsb' 4 4 := by
    apply BitVec.eq_of_getLsbD_eq
    intro j hj
    simp [hj, hlow (4 + j) (by omega)]
  have hreserved : reservedBits p k sr' = reservedBits p k sr := by simp only [reservedBits, hfour]
  apply word_ext
  intro j _
  rw [getLsbD_readSr, getLsbD_readSr, hreserved, hp, hp']
  split
  next h4 => exact hlow j (by omega)
  next h4 => rfl

section
variable {s s' : State} (hp : srP s.sr = true) (hp' : srP s'.sr = true) (h : SameButUpperByte s s')
include hp hp' h

theorem readSource_blind (k : Nat) (src : Source) : readSource s' k src = readSource s k src := by
  obtain ⟨hregs, -, -, -, -, -, hparams, hlow⟩ := h
  cases src with
  | imm v => rfl
  | reg r =>
    cases r with
    | file g => simp only [readSource, readReg, hregs]
    | sr => simp only [readSource, readReg, hparams, readSr_protected_congr hp hp' hlow]

theorem aluOperands_blind (c : AluControl) (a b : Source) : aluOperands s' c a b = aluOperands s c a b := by
  have hread := readSource_blind hp hp' h
  obtain ⟨-, -, -, -, -, hdraws, -, -⟩ := h
  simp only [aluOperands, hdraws, hread]

theorem aluUpdate_blind (c : AluControl) (a b : Source) (f : Flags) (j : Nat) (hj : j < 8) :
    (aluUpdate s' c a b f).getLsbD j = (aluUpdate s c a b f).getLsbD j := by
  have hflags := h.flagsOf_eq
  have hread := readSource_blind hp hp' h
  obtain ⟨-, -, -, -, -, hdraws, -, hlow⟩ := h
  simp only [aluUpdate, hdraws, hread]
  exact autoUpdate_low_congr hlow hflags _ _ _ _ j hj

theorem writeResult_blind (op : AluOp) (o : WriteOps) (c : AluControl) : writeResult op o c s' = writeResult op o c s := by
  simp only [writeResult, aluOperands_blind hp hp' h, h.flagsOf_eq]

theorem testResult_blind (op : AluOp) (o : TestOps) (c : AluControl) : testResult op o c s' = testResult op o c s := by
  simp only [testResult, aluOperands_blind hp hp' h, h.flagsOf_eq]

omit h in
theorem sourceReadable_blind (src : Source) : sourceReadable s' src = sourceReadable s src := by
  cases src <;> simp [sourceReadable, readable, hp, hp']

/-- A writing ALU instruction with no privileged destination ends alike in both states (R80, R25, R26). -/
theorem execWrite_blind {op : AluOp} {o : WriteOps} {c : AluControl} {t : State} (hd : isHighReg (writeDest o) = false)
    (ht : execWrite op o c s = .next t) : ∃ t', execWrite op o c s' = .next t' ∧ SameButUpperByte t t' := by
  obtain ⟨hc, ⟨hv, -⟩ | ⟨-, hr, -⟩⟩ := execWrite_next ht
  · rw [writeViolates_of_not_high s hd] at hv
    cases hv
  have hr' : writeReadable s' o = true := by
    simpa only [writeReadable, sourceReadable_blind hp hp'] using hr
  have hres := writeResult_blind hp hp' h op o c
  have hupdate := aluUpdate_blind hp hp' h c (writeSrcA o) (writeSrcB o) (writeResult op o c s).flags
  obtain ⟨hregs, hpc, hmem, htext, hlabels, hdraws, hparams, hlow⟩ := h
  have hdraws2 : s'.draws + 2 = s.draws + 2 := by rw [hdraws]
  have hpc1 : s'.pc + 1 = s.pc + 1 := by rw [hpc]
  cases hdest : writeDest o with
  | file g =>
    rw [execWrite_file hc hdest (writeViolates_of_not_high s hd) hr] at ht
    cases ht
    refine ⟨_, execWrite_file hc hdest (writeViolates_of_not_high s' hd) hr', ?_⟩
    rw [hres]
    refine ⟨?_, hpc1, hmem, htext, hlabels, hdraws2, hparams, hupdate⟩
    rw [hregs]
  | sr =>
    rw [execWrite_sr hc hdest hr (srWriteRefusal_protected _ hp _)] at ht
    cases ht
    refine ⟨_, execWrite_sr hc hdest hr' (srWriteRefusal_protected _ hp' _), ?_⟩
    rw [hres]
    refine ⟨hregs, hpc1, hmem, htext, hlabels, hdraws2, hparams, fun j hj => ?_⟩
    simp only [getLsbD_maskedWrite, Nat.not_le.mpr hj, and_false, if_false]

/-- A compare or test instruction ends alike in both states (R80, R25). -/
theorem execFlagsOnly_blind {op : AluOp} {o : TestOps} {c : AluControl} {t : State}
    (ht : execFlagsOnly op o c s = .next t) : ∃ t', execFlagsOnly op o c s' = .next t' ∧ SameButUpperByte t t' := by
  obtain ⟨hc, hr, rfl⟩ := execFlagsOnly_next ht
  have hr' : testReadable s' o = true := by
    simpa only [testReadable, sourceReadable_blind hp hp'] using hr
  refine ⟨_, execFlagsOnly_ok hc hr', ?_⟩
  rw [testResult_blind hp hp' h]
  have hupdate := aluUpdate_blind hp hp' h c (testSrcA o) (testSrcB o) (testResult op o c s).flags
  obtain ⟨hregs, hpc, hmem, htext, hlabels, hdraws, hparams, -⟩ := h
  exact ⟨hregs, congrArg (· + 1) hpc, hmem, htext, hlabels, congrArg (· + 2) hdraws, hparams, hupdate⟩

end

/-- A branch ends alike in two states with the same flags and labels, in either mode (R120, R121). -/
theorem execBran_blind {s s' t : State} {cc : Cond} {l : Label} (h : SameButUpperByte s s')
    (ht : execBran cc l s = .next t) : ∃ t', execBran cc l s' = .next t' ∧ SameButUpperByte t t' := by
  have hflags := h.flagsOf_eq
  obtain ⟨hregs, hpc, hmem, htext, hlabels, hdraws, hparams, hlow⟩ := h
  rcases execBran_next ht with ⟨hcond, target, htarget, rfl⟩ | ⟨hcond, rfl⟩
  · refine ⟨{ s' with pc := target, traceDue := s'.params.hasTrace && srT s'.sr }, ?_,
      hregs, rfl, hmem, htext, hlabels, hdraws, hparams, hlow⟩
    simp only [execBran, hflags, hcond, hlabels, htarget, if_true, complete_eq]
  · refine ⟨{ s' with pc := s'.pc + 1, traceDue := s'.params.hasTrace && srT s'.sr }, ?_,
      hregs, congrArg (· + 1) hpc, hmem, htext, hlabels, hdraws, hparams, hlow⟩
    simp only [execBran, hflags, hcond, Bool.false_eq_true, if_false, complete_eq]

/-- Settles O57: the two ALU templates and the branch each end alike in the two states. -/
theorem protectedModeIsBlind : Obligations.ProtectedModeIsBlind := by
  intro i s s' t hi hd hp hp' h ht
  rcases hi with ha | ⟨cc, l, rfl⟩
  · rcases isAlu_cases ha with ⟨o, c, hmem⟩ | ⟨o, c, hmem⟩
    · obtain ⟨hdest, -, op, hexec⟩ := writingInstrs_exec hmem
      rw [hexec] at ht ⊢
      exact execWrite_blind hp hp' h (hd _ (by simp [hdest])) ht
    · obtain ⟨-, op, hexec⟩ := readingInstrs_exec hmem
      rw [hexec] at ht ⊢
      exact execFlagsOnly_blind hp hp' h ht
  · exact execBran_blind h ht

end Sys2Proof.Machine
end

section
/-! SUPPORT and settled statements of 20_memory.md. This part: a read of memory after a write. -/

namespace Sys2Proof.Machine

/-! ### Bytes -/

/-- The byte at the address written. -/
theorem Memory.read_write_same {m : Memory} (h : m.wf = true) (a : Nat) (b : Byte) : (m.write a b).read a = b :=
  (Memory.read_write_from h a b a).trans (if_pos rfl)

/-- Every other byte stays. -/
theorem Memory.read_write_ne {m : Memory} (h : m.wf = true) {a x : Nat} (hx : x ≠ a) (b : Byte) :
    (m.write a b).read x = m.read x :=
  (Memory.read_write_from h a b x).trans (if_neg hx)

/-- Two neighbouring bytes written one after the other: each reads back. -/
theorem Memory.read_write_pair {m : Memory} (h : m.wf = true) (a : Nat) (b c : Byte) :
    ((m.write a b).write (a + 1) c).read a = b ∧ ((m.write a b).write (a + 1) c).read (a + 1) = c := by
  have hwf : (m.write a b).wf = true := Memory.write_wf h a b
  refine ⟨?_, Memory.read_write_same hwf (a + 1) c⟩
  rw [Memory.read_write_ne hwf (by omega), Memory.read_write_same h]

/-- A word is its upper byte followed by its lower byte. -/
theorem word_halves (v : Word) : (v.extractLsb' 8 8 ++ v.extractLsb' 0 8 : Word) = v :=
  (BitVec.extractLsb'_append_extractLsb'_eq_extractLsb' (start₂ := 8) (start₁ := 0) (len₁ := 8) rfl).trans
    BitVec.extractLsb'_eq_self

/-! ### Accesses of a load's width (R53, R55) -/

/-- A word reads back whole, in either byte order. -/
theorem memRead_memWrite_word {p : MemParams} {m : Memory} (h : m.wf = true) (a : Nat) (v : Word)
    (hp : p.loadWidth = .word) : memRead p (memWrite p m a v) a = v := by
  cases ho : p.byteOrder with
  | big =>
    obtain ⟨hfirst, hsecond⟩ := Memory.read_write_pair h a (v.extractLsb' 8 8) (v.extractLsb' 0 8)
    simp only [memRead, memWrite, hp, ho, hfirst, hsecond, word_halves]
  | little =>
    obtain ⟨hfirst, hsecond⟩ := Memory.read_write_pair h a (v.extractLsb' 0 8) (v.extractLsb' 8 8)
    simp only [memRead, memWrite, hp, ho, hfirst, hsecond, word_halves]

/-- A byte reads back with zeros above it. -/
theorem memRead_memWrite_byteZero {p : MemParams} {m : Memory} (h : m.wf = true) (a : Nat) (v : Word)
    (hp : p.loadWidth = .byteZero) : memRead p (memWrite p m a v) a = (v.extractLsb' 0 8).setWidth 16 := by
  simp only [memRead, memWrite, hp, Memory.read_write_same h]

/-- A byte reads back with its sign above it. -/
theorem memRead_memWrite_byteSign {p : MemParams} {m : Memory} (h : m.wf = true) (a : Nat) (v : Word)
    (hp : p.loadWidth = .byteSign) : memRead p (memWrite p m a v) a = (v.extractLsb' 0 8).signExtend 16 := by
  simp only [memRead, memWrite, hp, Memory.read_write_same h]

/-- Every byte outside the place written stays. -/
theorem memWrite_read_outside {p : MemParams} {m : Memory} (h : m.wf = true) (a : Nat) (v : Word) {x : Nat}
    (hx : ¬(a ≤ x ∧ x < a + loadBytes p.loadWidth)) : (memWrite p m a v).read x = m.read x := by
  have byte : ∀ b, loadBytes p.loadWidth = 1 → (m.write a b).read x = m.read x :=
    fun b hw => Memory.read_write_ne h (by omega) b
  have pair : ∀ b c, loadBytes p.loadWidth = 2 → ((m.write a b).write (a + 1) c).read x = m.read x := fun b c hw => by
    rw [Memory.read_write_ne (Memory.write_wf h a b) (by omega), Memory.read_write_ne h (by omega)]
  unfold memWrite
  cases hw : p.loadWidth with
  | word => cases p.byteOrder <;> exact pair _ _ (congrArg loadBytes hw)
  | byteZero => exact byte _ (congrArg loadBytes hw)
  | byteSign => exact byte _ (congrArg loadBytes hw)

/-- Settles O49, one lemma for each load width and one for the bytes outside the place written. -/
theorem memoryReadsLastWrite : Obligations.MemoryReadsLastWrite := fun p _ a v h =>
  ⟨memWrite_wf p h a v, memRead_memWrite_word h a v, memRead_memWrite_byteZero h a v, memRead_memWrite_byteSign h a v,
    fun _ hx => memWrite_read_outside h a v hx⟩

end Sys2Proof.Machine
end

section
/-! SUPPORT and settled statements of 20_memory.md. This part: no step stores. -/

namespace Sys2Proof.Machine

/-- What no step changes (R58, R60): memory, the program text, its labels, the parameters. -/
structure SameStored (s t : State) : Prop where
  mem : t.mem = s.mem
  text : t.text = s.text
  labels : t.labels = s.labels
  params : t.params = s.params

/-- A trap stores nothing (R161). -/
theorem trapEntry_sameStored {k : TrapKind} {ret : PC} {s t : State} (h : trapEntry k ret s = .next t) :
    SameStored s t := by
  obtain ⟨-, rfl⟩ := trapEntry_next h
  exact ⟨rfl, rfl, rfl, rfl⟩

/-- The `Trace` exception stores nothing (R153, R161). -/
theorem takeTrace_sameStored {s t : State} (h : takeTrace s = .next t) : SameStored s t := by
  obtain ⟨hmem, htext, hlabels, hparams⟩ := trapEntry_sameStored h
  exact ⟨hmem, htext, hlabels, hparams⟩

/-- No instruction stores (R60, N20-7). -/
theorem exec_sameStored {i : Instr} {s t : State} (h : exec i s = .next t) : SameStored s t := by
  cases exec_next h with
  | trap ht =>
    rcases ht with ht | ht
    · exact trapEntry_sameStored ht
    · exact trapEntry_sameStored ht
  | ordinary ho => exact ⟨ho.mem, ho.text, ho.labels, ho.params⟩
  | wait _ _ ht => subst ht; exact ⟨rfl, rfl, rfl, rfl⟩
  | halt _ _ _ ht => subst ht; exact ⟨rfl, rfl, rfl, rfl⟩
  | rete _ _ c _ ht => subst ht; exact ⟨rfl, rfl, rfl, rfl⟩

/-- A coprocessor operation stores nothing (the model's choice, log 29). -/
theorem coprocessorOperation_sameStored {c : Word} {s t : State} (h : coprocessorOperation c s = .next t) :
    SameStored s t := by
  obtain ⟨-, f, -, rfl⟩ := coprocessorOperation_next h
  exact ⟨rfl, rfl, rfl, rfl⟩

/-- What stays from the state whose event was consumed stays from the state before. -/
theorem SameStored.of_event {s t : State} {es : List EnvEvent} (h : SameStored { s with env := es } t) :
    SameStored s t :=
  ⟨h.mem, h.text, h.labels, h.params⟩

/-- No step stores, of the CPU or of the environment. -/
theorem step_sameStored {s t : State} (h : step s = .next t) : SameStored s t := by
  cases step_next h with
  | raised q es _ ht =>
    subst ht
    exact ⟨raiseRequest_mem q _, raiseRequest_text q _, raiseRequest_labels q _, raiseRequest_params q _⟩
  | withdrawn q es _ ht => subst ht; exact ⟨rfl, rfl, rfl, rfl⟩
  | reset es _ ht => subst ht; exact ⟨rfl, rfl, rfl, rfl⟩
  | idle es ht => subst ht; exact ⟨rfl, rfl, rfl, rfl⟩
  | blank es ht => subst ht; exact ⟨rfl, rfl, rfl, rfl⟩
  | interrupt es _ q ret ht => exact (trapEntry_sameStored ht).of_event
  | trace es _ ht => exact (takeTrace_sameStored ht).of_event
  | instr es _ _ _ i line _ _ ht => exact (exec_sameStored ht).of_event
  | coprocessor es _ _ _ c line _ _ ht => exact (coprocessorOperation_sameStored ht).of_event

/-- Settles O52 by the case analysis of a step. -/
theorem stepStoresNothing : Obligations.StepStoresNothing := by
  intro s t h
  obtain ⟨hmem, htext, hlabels, hparams⟩ := step_sameStored h
  exact ⟨fun a => by rw [hmem], htext, hlabels, hparams⟩

end Sys2Proof.Machine
end

section
/-! SUPPORT and settled statements of 20_memory.md. This part: `LOAD` and `LDEA` where an address calculation overflows, and an
access that is not admitted. -/

namespace Sys2Proof.Machine

/-! ### What stops a load, in the order of R110 -/

/-- The mode lets a register be written unless it is a high member in protected mode (R32). -/
theorem writeViolates_eq_false_iff {s : State} {r : Reg} :
    writeViolates s r = false ↔ ¬(isHighReg r = true ∧ srP s.sr = true) := by
  rw [writeViolates, ← Bool.not_eq_true, Bool.and_eq_true]

/-- The calculation traps exactly if it overflows with A set (R51). -/
theorem overflowTraps_of_overflow {s : State} {k : AddressCalc} (hA : srA s.sr = true)
    (ho : Config.addrOverflow k = true) : overflowTraps s k = true := by
  simp [overflowTraps, hA, ho]

/-- With nothing saved the exception `AddressOverflow` is taken (R152, R158). -/
theorem raiseAddressOverflow_of_empty {s : State} (h : s.saved = none) :
    ∃ t, raiseAddressOverflow s = .next t ∧
      TrapTaken .addressOverflow (returnAt s.params.overflowReturn s.pc) s t :=
  have ht := trapEntry_of_empty .addressOverflow (returnAt s.params.overflowReturn s.pc) h
  ⟨_, ht, trapEntry_taken ht⟩

/-- A `LOAD` whose calculation traps raises `AddressOverflow` (R110 step 3). -/
theorem execLoad_overflow {rd : Reg} {a : AddrOperand} {s : State} (hv : writeViolates s rd = false)
    (ho : overflowTraps s (addressCalc .load a s) = true) : execLoad rd a s = raiseAddressOverflow s := by
  simp [execLoad, hv, ho]

/-- An `LDEA` whose calculation traps raises `AddressOverflow` (R111). -/
theorem execLdea_overflow {d : LeaDest} {a : AddrOperand} {s : State} (hv : (leaRegs d).any (writeViolates s) = false)
    (ho : overflowTraps s (addressCalc .ldea a s) = true) : execLdea d a s = raiseAddressOverflow s := by
  simp only [execLdea, hv, ho, Bool.false_eq_true, if_false, if_true]

/-- A `LOAD` of an address that is not admitted is a fault (R54). -/
theorem execLoad_unadmitted {rd : Reg} {a : AddrOperand} {s : State} (hv : writeViolates s rd = false)
    (ho : overflowTraps s (addressCalc .load a s) = false) (ha : loadAdmitted a s = false) :
    execLoad rd a s = .fault .accessNotAdmitted := by
  simp [execLoad, hv, ho, ha]

/-- A `LOAD` into a register of the file that nothing stops completes with the value read (R110 steps 5 to 7). -/
theorem execLoad_file {g : FileReg} {a : AddrOperand} {s : State} (hv : writeViolates s (.file g) = false)
    (ho : overflowTraps s (addressCalc .load a s) = false) (ha : loadAdmitted a s = true) :
    execLoad (.file g) a s = .next
      { s with
        regs := s.regs.set g (loadedValue a s)
        pc := s.pc + 1
        traceDue := s.params.hasTrace && srT s.sr } :=
  (execLoad_of_write hv ho ha).1 _ rfl

/-! ### The address read -/

/-- The address of a calculation that overflows and does not trap is the wrapped one (R51). -/
theorem effectiveAddress_of_overflow {k : AddressCalc} (h : Config.addrOverflow k = true) :
    effectiveAddress k = wrappedAddress k :=
  (effectiveAddress_eq k).trans (if_pos h)

/-- The address of a calculation that does not overflow is its own (R50, R52). -/
theorem effectiveAddress_of_no_overflow {k : AddressCalc} (h : Config.addrOverflow k = false) :
    effectiveAddress k = plainAddress k :=
  (effectiveAddress_eq k).trans (if_neg (by simp [h]))

/-- `LOAD` into a register of the file reads at the calculation's address, whichever it is (R110 step 5). -/
theorem execLoad_file_reads {g : FileReg} {a : AddrOperand} {s : State} {addr : Address}
    (hv : writeViolates s (.file g) = false) (ho : overflowTraps s (addressCalc .load a s) = false)
    (haddr : effectiveAddress (addressCalc .load a s) = addr)
    (ha : admitted s.params.mem (Config.place addr) (loadBytes s.params.mem.loadWidth) = true) :
    ∃ t, execLoad (.file g) a s = .next t ∧ t.regs.get g = memRead s.params.mem s.mem (Config.place addr) := by
  subst haddr
  exact ⟨_, execLoad_file hv ho ha, RegFile.get_set_same _ _ _⟩

/-- Settles O22: with A set the calculation traps; with A clear, or no overflow, the address read is the wrapped or the plain one. -/
theorem addressOverflowRule : Obligations.AddressOverflowRule := by
  intro s a hsaved
  have htrap := raiseAddressOverflow_of_empty hsaved
  refine ⟨fun rd hrd hA ho => ?_, fun d hd hA ho => ?_, fun g hg hA ho hadm => ?_, fun g hg ho hadm => ?_⟩
  · have hexec : exec (.load rd a) s = raiseAddressOverflow s :=
      execLoad_overflow (writeViolates_eq_false_iff.mpr hrd) (overflowTraps_of_overflow hA ho)
    rwa [hexec]
  · have hv : (leaRegs d).any (writeViolates s) = false :=
      List.any_eq_false.mpr fun r hr => by simp [writeViolates_eq_false_iff.mpr (hd r hr)]
    have hexec : exec (.ldea d a) s = raiseAddressOverflow s := execLdea_overflow hv (overflowTraps_of_overflow hA ho)
    rwa [hexec]
  · exact execLoad_file_reads (writeViolates_eq_false_iff.mpr hg) (overflowTraps_of_clear hA _)
      (effectiveAddress_of_overflow ho) hadm
  · exact execLoad_file_reads (writeViolates_eq_false_iff.mpr hg)
      (overflowTraps_eq_false_iff.mpr fun h => by simp [ho] at h) (effectiveAddress_of_no_overflow ho) hadm

/-- Settles O23: neither the destination nor an overflow stops the `LOAD`, so its access decides. -/
theorem unadmittedAccessFaults : Obligations.UnadmittedAccessFaults := by
  intro s rd a hrd ho hadm
  rw [← effectiveAddress_eq] at hadm
  exact execLoad_unadmitted (writeViolates_eq_false_iff.mpr hrd) (overflowTraps_eq_false_iff.mpr ho) hadm

end Sys2Proof.Machine
end

section
/-! SUPPORT and settled statements of 30_encoding.md. This part: decoding the text of an instruction gives it back. -/

namespace Sys2Proof

/-- An ALU instruction has a line only with the plain control, and the decoder reads that line as its mnemonic's operands (R81, R102). -/
theorem decode_of_aluLine {m : Mnemonic} {t : Text} {c : AluControl} {line : Text} (h : aluLine m t c = some line)
    (ht : isOperandText t) : c = .plain ∧ decode line = decodeOperands m t := by
  unfold aluLine at h
  split at h
  next hc =>
    cases h
    exact ⟨hc, decode_instrLine m ht⟩
  · cases h

/-- Settles O58 by the form of the instruction's line: a mnemonic with operands, a conditional branch, or a mnemonic alone. -/
theorem decodeEncode : Obligations.DecodeEncode := by
  intro i line hwf h
  cases i with
  | addi o c | subi o c | adci o c | sbci o c | addr o c | andi o c | orri o c | xori o c =>
    obtain ⟨rfl, hd⟩ := decode_of_aluLine h (encodeWriteOps_isOperandText o)
    simp [hd, decodeOperands, bind, Except.bind, pure, Except.pure]
  | cmpi o c | cmpr o c | tsai o c | tsar o c | tsxi o c | tsxr o c =>
    obtain ⟨rfl, hd⟩ := decode_of_aluLine h (encodeTestOps_isOperandText o)
    simp [hd, decodeOperands, bind, Except.bind, pure, Except.pure]
  | load rd a =>
    cases h
    rw [decode_instrLine _ (loadOps_isOperandText rd hwf), decodeOperands, parseLoadOps_encode rd hwf]
    rfl
  | ldea d a =>
    cases d with
    | reg r =>
      cases h
      rw [decode_instrLine _ (loadOps_isOperandText r hwf), decodeOperands, parseLoadOps_encode r hwf]
      rfl
    | pair p => cases h
  | bran cc l =>
    obtain ⟨spelling, hcc, rfl⟩ := Option.map_eq_some_iff.mp h
    exact decode_branchLine hcc hwf
  | wait | halt | rete =>
    cases h
    decide

/-- Settles O60, by evaluation of the decoder on each line. -/
theorem listingLinesDecode : Obligations.ListingLinesDecode := by
  refine ⟨?_, ?_, ?_, ?_, ?_, ?_⟩ <;> decide

end Sys2Proof
end

section
/-! SUPPORT and settled statements of 30_encoding.md. This part: what the decoder accepts. -/

namespace Sys2Proof

/-- What a parser that goes on to build an instruction has read, where it answers one. -/
theorem bind_pure_ok {α : Type} {x : Except DecodeError α} {f : α → Instr} {i : Instr}
    (h : (x >>= fun a => pure (f a)) = .ok i) : ∃ a, x = .ok a ∧ i = f a := by
  cases x with
  | error e => cases h
  | ok a => cases h; exact ⟨a, rfl, rfl⟩

/-- An address operand the decoder reads is one the spec admits (R110, R67). -/
theorem parseLoadOps_ok {t : Text} {o : Reg × AddrOperand} (ht : ∀ b ∈ t, b ≠ ascii ';') (h : parseLoadOps t = .ok o) :
    addrOperandWf o.2 = true := by
  unfold parseLoadOps at h
  split at h
  · cases h
  next d a hsplit =>
  cases hd : regOperand (trim d) with
  | error e => rw [hd] at h; cases h
  | ok rd =>
    rw [hd] at h
    by_cases hne : (trim a).isEmpty = true
    · simp [hne, bind, Except.bind] at h
    · simp only [hne, bind, Except.bind] at h
      cases h
      have hchars : ∀ b ∈ trim a, b ≠ ascii ';' := fun b hb => ht b (mem_splitFirst hsplit b (mem_trim hb))
      obtain ⟨hhead, hlast⟩ := trim_ends a
      simpa [addrOperandWf, hhead, hlast, hne] using hchars

/-- The decoder answers a mnemonic without operands only as itself. -/
theorem noOperands_ok {i j : Instr} {t : Text} (h : noOperands i t = .ok j) : j = i := by
  unfold noOperands at h
  split at h
  · cases h; rfl
  · cases h

/-- What is read from operands without a comment is well formed and spelled. -/
theorem decodeOperands_sound {m : Mnemonic} {t : Text} {i : Instr} (ht : ∀ b ∈ t, b ≠ ascii ';')
    (h : decodeOperands m t = .ok i) : WellFormed i = true ∧ Spelled i = true := by
  cases m with
  | addi | subi | adci | sbci | addr | andi | orri | xori | cmpi | cmpr | tsai | tsar | tsxi | tsxr =>
    obtain ⟨o, -, rfl⟩ := bind_pure_ok h
    exact ⟨rfl, rfl⟩
  | load | ldea =>
    obtain ⟨o, ho, rfl⟩ := bind_pure_ok h
    exact ⟨parseLoadOps_ok ht ho, rfl⟩
  | bran => cases h
  | wait | halt | rete =>
    obtain rfl := noOperands_ok h
    exact ⟨rfl, rfl⟩

/-- A branch the decoder reads has an identifier as its label and a condition the source spells (R70, R71). -/
theorem decodeBranch_sound {cc l : Text} {i : Instr} (h : decodeBranch cc l = .ok i) :
    WellFormed i = true ∧ Spelled i = true := by
  unfold decodeBranch at h
  split at h
  · cases h
  next c hc =>
  split at h
  next hl => cases h; exact ⟨hl, parseCond_spelled hc⟩
  · cases h

/-- An instruction read from a word and the text after it comes from a mnemonic and its operands, or from a branch. -/
theorem decodeWord_ok {word operands : Text} {i : Instr} (h : decodeWord word operands = .ok i) :
    (∃ m, decodeOperands m operands = .ok i) ∨ ∃ cc, decodeBranch cc operands = .ok i := by
  unfold decodeWord at h
  split at h
  · split at h
    next m _ => exact .inl ⟨m, h⟩
    · cases h
  next cc _ =>
    split at h
    · exact .inr ⟨cc, h⟩
    · cases h
    · cases h

/-- An instruction read from a line is read from a word and a text of the line after it, the comment cut off (R67). -/
theorem decode_ok {line : Text} {i : Instr} (h : decode line = .ok i) :
    ∃ word operands, (∀ b ∈ operands, b ≠ ascii ';') ∧ decodeWord word operands = .ok i := by
  simp only [decode] at h
  split at h
  · cases h
  · refine ⟨_, _, fun b hb => ?_, h⟩
    have hcut : b ∈ cutComment line := mem_trim ((List.dropWhile_sublist _).subset (mem_trim hb))
    simpa using List.mem_takeWhile_imp hcut

/-- Settles O59: a line comes down to operands or to a branch, and what is read from either is sound. -/
theorem decodeIsSound : Obligations.DecodeIsSound := by
  intro line i h
  obtain ⟨word, operands, hchars, hword⟩ := decode_ok h
  rcases decodeWord_ok hword with ⟨m, hm⟩ | ⟨cc, hcc⟩
  · exact decodeOperands_sound hchars hm
  · exact decodeBranch_sound hcc

end Sys2Proof
end

section
/-! SUPPORT and settled statements of 30_encoding.md. This part: the line at the pc and the step that reads it. -/

namespace Sys2Proof.Machine

/-! ### The fetch, by the line it finds -/

theorem fetchTurn_of_none {s : State} (h : s.text[s.pc]? = none) : fetchTurn s = .settled (.fault .noInstructionAtPc) := by
  simp [fetchTurn, fetch, h]

theorem fetchTurn_of_instr {s : State} {line : Line} {i : Instr} (h : s.text[s.pc]? = some line)
    (hi : readLine line = .ok (.instr i)) : fetchTurn s = .run i s := by
  simp [fetchTurn, fetch, h, hi]

theorem fetchTurn_of_blank {s : State} {line : Line} (h : s.text[s.pc]? = some line)
    (he : readLine line = .error .noInstruction) : fetchTurn s = .settled (.next { s with pc := s.pc + 1 }) := by
  simp [fetchTurn, fetch, h, he]

theorem fetchTurn_of_undecodable {s : State} {line : Line} {e : DecodeError} (h : s.text[s.pc]? = some line)
    (he : readLine line = .error e) (hne : e ≠ .noInstruction) : fetchTurn s = .settled (.refused (.undecodable e)) := by
  rw [fetchTurn, fetch, h]
  dsimp only
  rw [he]
  cases e with
  | noInstruction => exact absurd rfl hne
  | _ => rfl

/-! ### The step on the CPU's turn -/

theorem dropEvent_of_no_event {s : State} (h : s.env = []) : dropEvent s = s := by
  rw [dropEvent, h, List.tail_nil, ← h]

/-- On the turn of a CPU that neither is halted nor waits, with no `Trace` due, a boundary is the fetch, the event used up (R156). -/
theorem boundary_eq_fetchTurn {s : State} (ht : CpuTurn s) (hh : srH s.sr = false) (hw : srW s.sr = false)
    (hd : s.traceDue = false) : boundary s = fetchTurn (dropEvent s) := by
  have hturn : boundary s = cpuTurn (dropEvent s) := by
    rcases ht with he | ⟨es, he⟩
    · simp [boundary, he, dropEvent_of_no_event he]
    · simp [boundary, dropEvent, he]
  rw [hturn, cpuTurn_fetch (by simp [dropEvent, hh]) (by simp [dropEvent, hd]) (by simp [dropEvent, hw])]

theorem step_of_settled {s : State} {o : Out} (h : boundary s = .settled o) : step s = o := by simp [step, h]

theorem step_of_run {s t : State} {i : Instr} (h : boundary s = .run i t) : step s = exec i t := by simp [step, h]

/-! ### What a line stands for -/

theorem readLine_text_ok {l : Text} {i : Instr} (h : decode l = .ok i) : readLine (.text l) = .ok (.instr i) := by
  simp [readLine, h]

theorem readLine_text_error {l : Text} {e : DecodeError} (h : decode l = .error e) : readLine (.text l) = .error e := by
  simp [readLine, h]

/-- The line that holds the next instruction, text or term, stands for it (log 41). -/
theorem readLine_of_runsNext {s : State} {i : Instr} (h : RunsNext s i) :
    ∃ line, s.text[s.pc]? = some line ∧ readLine line = .ok (.instr i) := by
  rcases h with ⟨l, hl, hd⟩ | ⟨hl, hwf⟩
  · exact ⟨_, hl, readLine_text_ok hd⟩
  · exact ⟨_, hl, by simp [readLine, hwf]⟩

/-- Settles O42: the boundary is the fetch, and the line at the pc stands for the instruction. -/
theorem stepRunsDecoded : Obligations.StepRunsDecoded := by
  intro s i ht hh hw hd hruns
  obtain ⟨line, hl, hi⟩ := readLine_of_runsNext hruns
  exact step_of_run ((boundary_eq_fetchTurn ht hh hw hd).trans (fetchTurn_of_instr hl hi))

/-- Settles O43: the boundary is the fetch, which the line at the pc decides. -/
theorem stepOnOtherLines : Obligations.StepOnOtherLines := by
  intro s ht hh hw hd
  have hfetch := boundary_eq_fetchTurn ht hh hw hd
  refine ⟨fun hl => ?_, fun l e hl he => ?_, fun i hl hwf => ?_⟩
  · exact step_of_settled (hfetch.trans (fetchTurn_of_none hl))
  · have hread := readLine_text_error he
    split
    next hblank => exact step_of_settled (hfetch.trans (fetchTurn_of_blank hl (hblank ▸ hread)))
    next hne => exact step_of_settled (hfetch.trans (fetchTurn_of_undecodable hl hread hne))
  · have hread : readLine (.term i) = .error .illFormedTerm := by simp [readLine, hwf]
    exact step_of_settled (hfetch.trans (fetchTurn_of_undecodable hl hread (by decide)))

theorem decodeTableWord_eq_some {nbits w : Nat} {i : Instr} (h : decodeTableWord nbits w = some i) :
    decode (lineOfWord nbits w) = .ok i := by
  unfold decodeTableWord at h
  split at h
  next hd => cases h; exact hd
  · cases h

/-- Settles O45: the placed state is one in which the line at the pc runs, with no event to use up. -/
theorem placedInstructionRuns : Obligations.PlacedInstructionRuns := by
  intro s nbits w i h
  have hruns : RunsNext (s.withFetchWord nbits w) i := .inl ⟨_, setLine_get _ _ _, decodeTableWord_eq_some h⟩
  have hh : srH (s.withFetchWord nbits w).sr = false := srH_setH _ _
  have hw : srW (s.withFetchWord nbits w).sr = false := (srW_setH _ _).trans (srW_setW _ _)
  exact stepRunsDecoded _ i (.inl rfl) hh hw rfl hruns

end Sys2Proof.Machine
end

section
/-! SUPPORT and settled statements of 30_encoding.md. This part: the operand shapes of `ADDI`. -/

namespace Sys2Proof.Machine

/-- In supervisor mode every source may be read (R32). -/
theorem writeReadable_supervisor {s : State} (hp : srP s.sr = false) (o : WriteOps) : writeReadable s o = true := by
  have hsrc : ∀ src, sourceReadable s src = true := fun src => by cases src <;> simp [sourceReadable, readable, hp]
  simp [writeReadable, hsrc]

/-- In supervisor mode a plain `ADDI` leaves in its destination the sum of its sources as they were before the write (R80, R88). -/
theorem exec_addi_plain_supervisor {s : State} {o : WriteOps} {g : FileReg} (hp : srP s.sr = false)
    (hd : writeDest o = .file g) :
    ∃ t, exec (.addi o .plain) s = .next t ∧ t.regs.get g = (writeRead s o).1 + (writeRead s o).2 := by
  obtain ⟨op, hexec, hvalue⟩ := writingResults_exec (o := o) (c := .plain) (s := s) List.mem_cons_self
  have hv : writeViolates s (writeDest o) = false := by simp [writeViolates, hp]
  exact ⟨_, hexec.trans (execWrite_file rfl hd hv (writeReadable_supervisor hp o)),
    (RegFile.get_set_same _ _ _).trans hvalue⟩

/-- Settles O11: each shape names its destination and its sources, and the one sum of them is `ADDI`'s. -/
theorem addiShapes : Obligations.AddiShapes := fun _ _ _ _ _ hp =>
  ⟨exec_addi_plain_supervisor hp rfl, exec_addi_plain_supervisor hp rfl, exec_addi_plain_supervisor hp rfl⟩

end Sys2Proof.Machine
end

section
/-! SUPPORT and settled statements of 40_alu.md. This part: the flags of each class of result. -/

namespace Sys2Proof.Machine

/-! ### Z and N of a result -/

/-- Z of a result as its number (R13). -/
theorem beq_zero_iff_toNat (r : Word) : (r == 0) = true ↔ r.toNat = 0 := by
  rw [beq_iff_eq, ← BitVec.toNat_inj]
  rfl

/-- N of a result is the sign bit of the word (R14). -/
theorem getLsbD_15_eq_msb (r : Word) : r.getLsbD 15 = r.msb := (BitVec.msb_eq_getLsbD_last r).symm

/-! ### The four classes -/

/-- Settles O1: each flag as a bound on the exact sum; the two readings of V agree by the signs of the operands. -/
theorem additionFlagRule : Obligations.AdditionFlagRule := by
  intro a b cin
  have hvalue : (aluAdd a b cin).value.toNat = (a.toNat + b.toNat + cin.toNat) % 65536 := BitVec.toNat_ofNat _ _
  have hn : (aluAdd a b cin).flags.n = decide (32768 ≤ (aluAdd a b cin).value.toNat) :=
    (getLsbD_15_eq_msb _).trans (BitVec.msb_eq_decide _)
  have hv : (aluAdd a b cin).flags.v = true ↔
      (a.toInt + b.toInt + cin.toNat < -32768 ∨ 32767 < a.toInt + b.toInt + cin.toNat) := decide_eq_true_iff
  refine ⟨hvalue, ?_, ?_, decide_eq_true_iff, hv, ?_⟩
  · rw [← hvalue]
    exact beq_zero_iff_toNat _
  · rw [hn, decide_eq_true_iff, hvalue]
  · have ha := a.isLt
    have hb := b.isLt
    have hcin := cin.toNat_le
    rw [hv, hn, hvalue, BitVec.msb_eq_decide a, BitVec.msb_eq_decide b, BitVec.toInt_eq_toNat_cond a,
      BitVec.toInt_eq_toNat_cond b, ne_eq, decide_eq_decide, decide_eq_decide]
    split <;> split <;> omega

/-- Settles O2: each flag as a bound on the exact difference; the two readings of V agree by the signs of the operands. -/
theorem subtractionFlagRule : Obligations.SubtractionFlagRule := by
  intro a b bin
  have hvalue : ((aluSub a b bin).value.toNat : Int) = ((a.toNat : Int) - b.toNat - bin.toNat) % 65536 :=
    (congrArg Nat.cast (BitVec.toNat_ofInt _)).trans (Int.toNat_of_nonneg (Int.emod_nonneg _ (by decide)))
  have hn : (aluSub a b bin).flags.n = decide (32768 ≤ (aluSub a b bin).value.toNat) :=
    (getLsbD_15_eq_msb _).trans (BitVec.msb_eq_decide _)
  have hz : (aluSub a b bin).flags.z = true ↔ (aluSub a b bin).value.toNat = 0 := beq_zero_iff_toNat _
  have hc : (aluSub a b bin).flags.c = true ↔ (a.toNat : Int) - b.toNat - bin.toNat < 0 := decide_eq_true_iff
  have hv : (aluSub a b bin).flags.v = true ↔
      (a.toInt - b.toInt - bin.toNat < -32768 ∨ 32767 < a.toInt - b.toInt - bin.toNat) := decide_eq_true_iff
  refine ⟨hvalue, ?_, ?_, ?_, hv, ?_⟩
  · rw [hz, ← hvalue]
    omega
  · rw [hn, decide_eq_true_iff, ← hvalue]
    omega
  · rw [hc]
    omega
  · have ha := a.isLt
    have hb := b.isLt
    have hbin := bin.toNat_le
    rw [hv, hn, BitVec.msb_eq_decide a, BitVec.msb_eq_decide b, BitVec.toInt_eq_toNat_cond a,
      BitVec.toInt_eq_toNat_cond b, ne_eq, ne_eq, decide_eq_decide, decide_eq_decide]
    split <;> split <;> omega

theorem logicalFlags_aluLogical (r : Word) : LogicalFlags r (aluLogical r).flags :=
  ⟨beq_iff_eq, getLsbD_15_eq_msb r, rfl, rfl⟩

theorem testFlags_aluTest (r : Word) (old : Flags) : TestFlags r old (aluTest r old).flags :=
  ⟨beq_iff_eq, getLsbD_15_eq_msb r, rfl, rfl⟩

/-- Settles O3: Z is the test for zero and N the sign bit in both classes. -/
theorem logicalAndTestFlagRules : Obligations.LogicalAndTestFlagRules := fun r old =>
  ⟨logicalFlags_aluLogical r, testFlags_aluTest r old⟩

/-- Adding zero gives the value back with the flags of a logical result: no carry and no overflow (R82, R84). -/
theorem aluAdd_zero (a : Word) : aluAdd a 0#16 false = aluLogical a := by
  have hlt := a.isLt
  have hlow := BitVec.le_toInt a
  have hhigh := BitVec.toInt_lt (x := a)
  have hv : ¬(a.toInt < -32768 ∨ 32767 < a.toInt) := by omega
  have hc : ¬65536 ≤ a.toNat := by omega
  simp only [aluAdd, aluLogical, BitVec.toNat_zero, BitVec.toInt_zero, Bool.toNat_false, Nat.add_zero, Int.add_zero,
    Nat.cast_zero, BitVec.ofNat_toNat, BitVec.setWidth_eq, hv, hc, decide_false]

end Sys2Proof.Machine
end

section
/-! SUPPORT and settled statements of 40_alu.md. This part: the ALU instructions that complete into a register of the file or into
the flags only, and the refusal of R102. -/

namespace Sys2Proof.Machine

/-! ### The ALU template in the words of the statements -/

/-- The flags after the automatic update follow the update source, where the class gives the operation's flags (R81, R102). -/
theorem updateRule_of_autoUpdate {c : AluControl} {a b : Word} {f : Flags} {byClass : Flags → Prop} {s t : State}
    (hsr : t.sr = autoUpdate c a b f s.sr) (hf : byClass f) : UpdateRule c a b byClass s t := by
  unfold UpdateRule
  rw [hsr]
  refine ⟨fun hu => ?_, fun hu => ?_, fun sh hu hs => ?_⟩
  · rwa [autoUpdate_alu hu, flagsOf_withFlags]
  · rw [autoUpdate_none hu]
  · rw [autoUpdate_shift hu hs, flagsOf_withFlags, nibble_ofNibble]

/-- The automatic update keeps bits 15 to 4 of `sr` (R80). -/
theorem sameSrExcept_of_autoUpdate {c : AluControl} {a b : Word} {f : Flags} {s t : State}
    (hsr : t.sr = autoUpdate c a b f s.sr) : SameSrExcept [0, 1, 2, 3] s t := by
  intro j hj
  simp only [List.mem_cons, List.not_mem_nil, or_false, not_or] at hj
  rw [hsr, getLsbD_autoUpdate_high _ _ _ _ _ (by omega)]

/-- The operation of a writing instruction works on the operands the statements name (R80 step 3, R102). -/
theorem writeResult_eq (op : AluOp) (o : WriteOps) (c : AluControl) (s : State) :
    writeResult op o c s = op (operands c (writeRead s o)).1 (operands c (writeRead s o)).2 (flagsOf s.sr) := by
  rw [writeResult, aluOperands_write]

/-- The operation of a compare or test instruction works on the operands the statements name (R80 step 3, R102). -/
theorem testResult_eq (op : AluOp) (o : TestOps) (c : AluControl) (s : State) :
    testResult op o c s = op (operands c (testRead s o)).1 (operands c (testRead s o)).2 (flagsOf s.sr) := by
  unfold testResult aluOperands shifted operands
  cases c.shift <;> rfl

/-- A writing ALU instruction into a register of the file completes with its operation's value and, by the update source, its
flags; nothing else changes (R80). -/
theorem execWrite_file_completes {op : AluOp} {o : WriteOps} {c : AluControl} {s : State} {g : FileReg}
    {byClass : Flags → Prop} (hc : c.wf = true) (hd : writeDest o = .file g) (hg : ¬(isHighFile g = true ∧ srP s.sr = true))
    (hr : writeReadable s o = true)
    (hf : byClass (op (operands c (writeRead s o)).1 (operands c (writeRead s o)).2 (flagsOf s.sr)).flags) :
    ∃ t, execWrite op o c s = .next t ∧
      t.regs.get g = (op (operands c (writeRead s o)).1 (operands c (writeRead s o)).2 (flagsOf s.sr)).value ∧
      UpdateRule c (writeRead s o).1 (writeRead s o).2 byClass s t ∧ AluFrame [g] s t := by
  have hv : writeViolates s (writeDest o) = false := by rw [hd]; exact writeViolates_eq_false_iff.mpr hg
  rw [← writeResult_eq op o c s] at hf ⊢
  refine ⟨_, execWrite_file hc hd hv hr, RegFile.get_set_same _ _ _, updateRule_of_autoUpdate rfl hf, fun g' hg' => ?_,
    sameSrExcept_of_autoUpdate rfl, ⟨rfl, rfl⟩, rfl, rfl, rfl, fun _ => rfl, rfl, rfl, rfl, rfl⟩
  exact RegFile.get_set_ne _ (List.ne_of_not_mem_cons hg') _

/-- A compare or test instruction completes with, by the update source, its operation's flags; nothing else changes (R80). -/
theorem execFlagsOnly_completes {op : AluOp} {o : TestOps} {c : AluControl} {s : State} {byClass : Flags → Prop}
    (hc : c.wf = true) (hr : testReadable s o = true)
    (hf : byClass (op (operands c (testRead s o)).1 (operands c (testRead s o)).2 (flagsOf s.sr)).flags) :
    ∃ t, execFlagsOnly op o c s = .next t ∧ UpdateRule c (testRead s o).1 (testRead s o).2 byClass s t ∧ AluFrame [] s t := by
  rw [← testResult_eq op o c s] at hf
  exact ⟨_, execFlagsOnly_ok hc hr, updateRule_of_autoUpdate rfl hf, fun _ _ => rfl, sameSrExcept_of_autoUpdate rfl,
    ⟨rfl, rfl⟩, rfl, rfl, rfl, fun _ => rfl, rfl, rfl, rfl, rfl⟩

/-! ### The classes of instructions -/

/-- An addition into a register of the file completes with the sum of R82, with what `cin` takes of the old flags carried in. -/
theorem execWrite_aluAdd_completes (cin : Flags → Bool) {o : WriteOps} {c : AluControl} {s : State} {g : FileReg}
    (hc : c.wf = true) (hd : writeDest o = .file g) (hg : ¬(isHighFile g = true ∧ srP s.sr = true))
    (hr : writeReadable s o = true) :
    ∃ t, execWrite (fun a b f => aluAdd a b (cin f)) o c s = .next t ∧
      (t.regs.get g).toNat =
        ((operands c (writeRead s o)).1.toNat + (operands c (writeRead s o)).2.toNat + (cin (flagsOf s.sr)).toNat) % 65536 ∧
      UpdateRule c (writeRead s o).1 (writeRead s o).2
        (AddFlags (operands c (writeRead s o)).1 (operands c (writeRead s o)).2 (cin (flagsOf s.sr)).toNat) s t ∧
      AluFrame [g] s t := by
  obtain ⟨hvalue, hflags⟩ :=
    additionFlagRule (operands c (writeRead s o)).1 (operands c (writeRead s o)).2 (cin (flagsOf s.sr))
  obtain ⟨t, ht, hreg, hrest⟩ :=
    execWrite_file_completes (op := fun a b f => aluAdd a b (cin f)) hc hd hg hr hflags
  exact ⟨t, ht, hreg ▸ hvalue, hrest⟩

/-- Settles O4: `ADDI` and `ADDR` carry nothing in, `ADCI` the flag C. -/
theorem additionsComplete : Obligations.AdditionsComplete := by
  intro o c s g hc hd hg hr i cin hi
  simp only [List.mem_cons, List.not_mem_nil, or_false, Prod.mk.injEq] at hi
  rcases hi with ⟨rfl, rfl⟩ | ⟨rfl, rfl⟩ | ⟨rfl, rfl⟩
  · exact execWrite_aluAdd_completes (fun _ => false) hc hd hg hr
  · exact execWrite_aluAdd_completes (fun _ => false) hc hd hg hr
  · exact execWrite_aluAdd_completes Flags.c hc hd hg hr

/-- A subtraction into a register of the file completes with the difference of R83, less what `bin` takes of the old flags. -/
theorem execWrite_aluSub_completes (bin : Flags → Bool) {o : WriteOps} {c : AluControl} {s : State} {g : FileReg}
    (hc : c.wf = true) (hd : writeDest o = .file g) (hg : ¬(isHighFile g = true ∧ srP s.sr = true))
    (hr : writeReadable s o = true) :
    ∃ t, execWrite (fun a b f => aluSub a b (bin f)) o c s = .next t ∧
      ((t.regs.get g).toNat : Int) =
        (((operands c (writeRead s o)).1.toNat : Int) - (operands c (writeRead s o)).2.toNat -
          (bin (flagsOf s.sr)).toNat) % 65536 ∧
      UpdateRule c (writeRead s o).1 (writeRead s o).2
        (SubFlags (operands c (writeRead s o)).1 (operands c (writeRead s o)).2 (bin (flagsOf s.sr)).toNat) s t ∧
      AluFrame [g] s t := by
  obtain ⟨hvalue, hflags⟩ :=
    subtractionFlagRule (operands c (writeRead s o)).1 (operands c (writeRead s o)).2 (bin (flagsOf s.sr))
  obtain ⟨t, ht, hreg, hrest⟩ :=
    execWrite_file_completes (op := fun a b f => aluSub a b (bin f)) hc hd hg hr hflags
  exact ⟨t, ht, hreg ▸ hvalue, hrest⟩

/-- Settles O5: `SUBI` borrows nothing, `SBCI` the flag C. -/
theorem subtractionsComplete : Obligations.SubtractionsComplete := by
  intro o c s g hc hd hg hr i bin hi
  simp only [List.mem_cons, List.not_mem_nil, or_false, Prod.mk.injEq] at hi
  rcases hi with ⟨rfl, rfl⟩ | ⟨rfl, rfl⟩
  · exact execWrite_aluSub_completes (fun _ => false) hc hd hg hr
  · exact execWrite_aluSub_completes Flags.c hc hd hg hr

/-- Settles O6: each is the template of a bitwise operation, whose flags are the logical class's. -/
theorem logicalsComplete : Obligations.LogicalsComplete := by
  intro o c s g hc hd hg hr i r hi
  simp only [List.mem_cons, List.not_mem_nil, or_false, Prod.mk.injEq] at hi
  rcases hi with ⟨rfl, rfl⟩ | ⟨rfl, rfl⟩ | ⟨rfl, rfl⟩
  · exact execWrite_file_completes hc hd hg hr (logicalFlags_aluLogical _)
  · exact execWrite_file_completes hc hd hg hr (logicalFlags_aluLogical _)
  · exact execWrite_file_completes hc hd hg hr (logicalFlags_aluLogical _)

/-- Settles O7: both are the template of a subtraction without a borrow in. -/
theorem comparesComplete : Obligations.ComparesComplete := by
  intro o c s hc hr i hi
  obtain ⟨-, hflags⟩ := subtractionFlagRule (operands c (testRead s o)).1 (operands c (testRead s o)).2 false
  simp only [List.mem_cons, List.not_mem_nil, or_false] at hi
  rcases hi with rfl | rfl
  · exact execFlagsOnly_completes hc hr hflags
  · exact execFlagsOnly_completes hc hr hflags

/-- Settles O8: each is the template of a bitwise operation, whose flags are the test class's. -/
theorem testsComplete : Obligations.TestsComplete := by
  intro o c s hc hr i r hi
  simp only [List.mem_cons, List.not_mem_nil, or_false, Prod.mk.injEq] at hi
  rcases hi with ⟨rfl, rfl⟩ | ⟨rfl, rfl⟩ | ⟨rfl, rfl⟩ | ⟨rfl, rfl⟩
  · exact execFlagsOnly_completes hc hr (testFlags_aluTest _ _)
  · exact execFlagsOnly_completes hc hr (testFlags_aluTest _ _)
  · exact execFlagsOnly_completes hc hr (testFlags_aluTest _ _)
  · exact execFlagsOnly_completes hc hr (testFlags_aluTest _ _)

/-! ### Terms the spec does not have -/

theorem execWrite_of_not_wf {c : AluControl} (hc : c.wf = false) (op : AluOp) (o : WriteOps) (s : State) :
    execWrite op o c s = .refused .notInSpec := by
  simp [execWrite, hc]

theorem execFlagsOnly_of_not_wf {c : AluControl} (hc : c.wf = false) (op : AluOp) (o : TestOps) (s : State) :
    execFlagsOnly op o c s = .refused .notInSpec := by
  simp [execFlagsOnly, hc]

/-- Settles O13: such a control is not well-formed, which both templates check first. -/
theorem shiftUpdateNeedsShift : Obligations.ShiftUpdateNeedsShift := by
  intro s o p c hu hs
  have hc : c.wf = false := by simp [AluControl.wf, hu, hs]
  refine ⟨fun i hi => ?_, fun i hi => ?_⟩
  · obtain ⟨-, -, op, hexec⟩ := writingInstrs_exec hi
    rw [hexec, execWrite_of_not_wf hc]
  · obtain ⟨-, op, hexec⟩ := readingInstrs_exec hi
    rw [hexec, execFlagsOnly_of_not_wf hc]

end Sys2Proof.Machine
end

section
/-! SUPPORT and settled statements of 40_alu.md. This part: `sr` as a destination and as a source of an ALU instruction, and who
changes its upper byte. -/

namespace Sys2Proof.Machine

/-! ### `sr` as a destination -/

/-- A write of `sr` that the statements admit is not refused: in protected mode none is, else it turns nothing on (R29, R153). -/
theorem srWriteRefusal_of_admitted {s : State} {v : Word} (h : SrWriteAdmitted s v) :
    srWriteRefusal s.params s.sr (maskedWrite s.sr v) = none := by
  cases hp : srP s.sr with
  | true => exact srWriteRefusal_protected _ hp v
  | false =>
    rw [maskedWrite_supervisor hp]
    exact srWriteRefusal_none_iff.mpr (h.resolve_left (by simp [hp]))

/-- Settles O9: the template into `sr` ends in the masked write of the result alone. -/
theorem aluWritesStatusRegister : Obligations.AluWritesStatusRegister := by
  intro o c s hc hd hr e he hadm
  obtain ⟨op, hexec, hvalue⟩ := writingResults_exec he
  rw [← hvalue] at hadm ⊢
  refine ⟨_, hexec.trans (execWrite_sr hc hd hr (srWriteRefusal_of_admitted hadm)), fun j _ => getLsbD_maskedWrite _ _ j,
    fun _ _ => rfl, ⟨rfl, rfl⟩, rfl, rfl, rfl, fun _ => rfl, rfl, rfl, rfl, rfl⟩

/-! ### `sr` as a source -/

/-- An instruction that changes at most the flags keeps bits 15 to 4 of `sr`. -/
theorem SameSrExcept.getLsbD_high {s t : State} (h : SameSrExcept [0, 1, 2, 3] s t) {j : Nat} (hj : 4 ≤ j) :
    t.sr.getLsbD j = s.sr.getLsbD j := by
  refine h j ?_
  simp only [List.mem_cons, List.not_mem_nil, or_false]
  omega

/-- `ADDR rd, sr, #0` copies the operand read of `sr` and updates the flags from it as a logical result would (R92, R103). -/
theorem exec_copyStatus {s : State} {g : FileReg} (hg : ¬(isHighFile g = true ∧ srP s.sr = true)) :
    ∃ t, exec (.addr (.s2 (.file g) .sr 0) .plain) s = .next t ∧ t.regs.get g = readSr s.params s.draws s.sr ∧
      LogicalFlags (readSr s.params s.draws s.sr) (flagsOf t.sr) ∧ AluFrame [g] s t := by
  have hflags : LogicalFlags (readSr s.params s.draws s.sr) (aluAdd (readSr s.params s.draws s.sr) 0#16 false).flags := by
    rw [aluAdd_zero]
    exact logicalFlags_aluLogical _
  obtain ⟨t, ht, hreg, ⟨halu, -, -⟩, hframe⟩ := execWrite_file_completes (op := fun a b _ => aluAdd a b false)
    (o := .s2 (.file g) .sr 0) (c := .plain) rfl rfl hg rfl hflags
  refine ⟨t, ht, hreg.trans ?_, halu rfl, hframe⟩
  exact congrArg AluResult.value (aluAdd_zero _)

/-- Settles O14: the bits copied are those of the operand read, and the flags those of the value copied. -/
theorem readingStatusDisturbsFlags : Obligations.ReadingStatusDisturbsFlags := by
  intro s g hg
  obtain ⟨t, ht, hreg, ⟨hz, hn, hc, hv⟩, -, hsr, -, -⟩ := exec_copyStatus hg
  obtain ⟨hflags, hupper, hstored, -, -⟩ := statusReadByMode s.params s.draws s.sr
  rw [← hreg] at hz hn hflags hupper hstored
  refine ⟨t, ht, hflags, fun j h4 h8 hp => hstored hp j h4 h8, hupper, hc, hv, hz, hn, fun j hj => hsr.getLsbD_high hj⟩

/-- Where bits 7 to 4 read as stored, the operand read of `sr` gives back what the masked write takes of it (R25, R26). -/
theorem getLsbD_readSr_stored {p : Params} (hp : p.reservedRead = .stored) (k : Nat) (sr : Word) {j : Nat}
    (hj : j < 8 ∨ srP sr = false) : (readSr p k sr).getLsbD j = sr.getLsbD j := by
  obtain ⟨hflags, hupper, hstored, -, -⟩ := statusReadByMode p k sr
  by_cases h4 : j < 4
  · exact hflags j h4
  by_cases h8 : j < 8
  · exact hstored hp j (by omega) h8
  · have hsup : sr.getLsbD 8 = false := hj.resolve_left h8
    rw [hupper j (by omega), hsup]
    rfl

/-- `ADDR sr, rs, #0` is the masked write of the register, where the mode lets it be read and the write is admitted (R86). -/
theorem exec_restoreStatus {s : State} {g : FileReg} (hg : ¬(isHighFile g = true ∧ srP s.sr = true))
    (hadm : SrWriteAdmitted s (s.regs.get g)) :
    ∃ t, exec (.addr (.s2 .sr (.file g) 0) .plain) s = .next t ∧ SrWritten (s.regs.get g) s t := by
  have hread : writeReadable s (.s2 .sr (.file g) 0) = true := by
    rw [not_and_or, Bool.not_eq_true, Bool.not_eq_true] at hg
    simpa [writeReadable, writeSrcA, writeSrcB, sourceReadable, readable, isHighReg] using hg
  have hresult : (Instr.addr (.s2 .sr (.file g) 0) .plain, s.regs.get g) ∈
      writingResults (.s2 .sr (.file g) 0) .plain s (s.regs.get g, 0) := by simp [writingResults]
  obtain ⟨t, ht, hwritten, -⟩ := aluWritesStatusRegister _ _ s rfl rfl hread _ hresult hadm
  exact ⟨t, ht, hwritten⟩

/-- Settles O17: the save keeps bits 15 to 4 of `sr`, so the mode too, and the restore writes back the bits the save copied. -/
theorem saveThenRestoreStatus : Obligations.SaveThenRestoreStatus := by
  intro s g hstored hg
  obtain ⟨t, ht, hreg, -, -, hsr, -, -⟩ := exec_copyStatus hg
  have hmode : srP t.sr = srP s.sr := hsr.getLsbD_high (j := 8) (by decide)
  have hcopied : ∀ j, j < 8 ∨ srP s.sr = false → (t.regs.get g).getLsbD j = s.sr.getLsbD j := fun j hj =>
    (congrArg (BitVec.getLsbD · j) hreg).trans (getLsbD_readSr_stored hstored _ _ hj)
  have hadm : SrWriteAdmitted t (t.regs.get g) := by
    cases hp : srP s.sr with
    | true => exact .inl (hmode.trans hp)
    | false =>
      have hkept : ∀ j, 4 ≤ j → (t.regs.get g).getLsbD j = true → t.sr.getLsbD j = true := fun j hj hbit =>
        (hsr.getLsbD_high hj).trans ((hcopied j (.inr hp)).symm.trans hbit)
      exact .inr ⟨hkept 12 (by decide), hkept 13 (by decide), fun h => .inl (hkept 15 (by decide) h)⟩
  obtain ⟨u, hu, hwritten⟩ := exec_restoreStatus (hmode ▸ hg) hadm
  refine ⟨t, u, ht, hu, word_ext fun j hj => ?_⟩
  rw [hwritten j hj, hmode]
  split
  next hprot => exact hsr.getLsbD_high (by omega)
  next hprot =>
    rw [not_and_or, Bool.not_eq_true, Nat.not_le] at hprot
    exact hcopied j hprot.symm

/-! ### The upper byte of `sr` -/

/-- In protected mode the masked write keeps bits 15 to 8 (R26). -/
theorem getLsbD_maskedWrite_protected {sr : Word} (hp : srP sr = true) (v : Word) {j : Nat} (hj : 8 ≤ j) :
    (maskedWrite sr v).getLsbD j = sr.getLsbD j :=
  (getLsbD_maskedWrite sr v j).trans (if_pos ⟨hp, hj⟩)

/-- Settles O55: by what an instruction can do; WAIT, HALT and RETE have no next state in protected mode. -/
theorem protectedModeKeepsUpperByte : Obligations.ProtectedModeKeepsUpperByte := by
  intro i s t hp h
  cases exec_next h with
  | trap ht =>
    rcases ht with ht | ht
    · exact .inr ⟨_, _, trapEntry_taken ht⟩
    · exact .inr ⟨_, _, trapEntry_taken ht⟩
  | ordinary ho =>
    refine .inl fun j hj => ?_
    rcases ho.sr with ⟨-, -, v, hv⟩ | ⟨-, hkept⟩
    · rw [hv, getLsbD_maskedWrite_protected hp v hj]
    · exact hkept j (by omega)
  | wait _ hs => rw [hs] at hp; cases hp
  | halt _ hs => rw [hs] at hp; cases hp
  | rete _ hs => rw [hs] at hp; cases hp

/-- A writing ALU instruction takes the trap `PrivilegeViolation`, or keeps the upper byte of `sr`, or has `sr` as its destination
in supervisor mode (R104). -/
theorem execWrite_upperByte {op : AluOp} {o : WriteOps} {c : AluControl} {s t : State} (h : execWrite op o c s = .next t) :
    TrapTaken .privilegeViolation (returnAt s.params.privilegeReturn s.pc) s t ∨
      (∀ j, 8 ≤ j → t.sr.getLsbD j = s.sr.getLsbD j) ∨ (writeDest o = .sr ∧ srP s.sr = false) := by
  obtain ⟨-, ⟨-, h⟩ | ⟨-, -, u, hu, h⟩⟩ := execWrite_next h
  · exact .inl (trapEntry_taken h)
  rw [complete_eq] at h
  cases h
  rcases commitWrite_ok hu with ⟨g, -, rfl⟩ | ⟨hd, -, rfl⟩
  · exact .inr (.inl fun j hj => getLsbD_autoUpdate_high _ _ _ _ _ (by omega))
  · cases hp : srP s.sr with
    | true => exact .inr (.inl fun j hj => getLsbD_maskedWrite_protected hp _ hj)
    | false => exact .inr (.inr ⟨hd, rfl⟩)

/-- Settles O56: by the two ALU templates; a compare or test touches bits 3 to 0 only. -/
theorem aluKeepsUpperByte : Obligations.AluKeepsUpperByte := by
  rintro i s t ha h ⟨j, hj, hne⟩
  rcases isAlu_cases ha with ⟨o, c, hi⟩ | ⟨o, c, hi⟩
  · obtain ⟨hdest, -, op, hexec⟩ := writingInstrs_exec hi
    rw [hexec] at h
    rcases execWrite_upperByte h with htrap | hkept | ⟨hd, hp⟩
    · exact .inr htrap
    · exact absurd (hkept j hj) hne
    · exact .inl ⟨by simp [hdest, hd], hp⟩
  · obtain ⟨-, op, hexec⟩ := readingInstrs_exec hi
    rw [hexec] at h
    obtain ⟨-, -, rfl⟩ := execFlagsOnly_next h
    exact absurd (getLsbD_autoUpdate_high _ _ _ _ _ (by omega)) hne

end Sys2Proof.Machine
end

section
/-! SUPPORT and settled statements of 41_load.md: `LOAD` and `LDEA` where they complete, into registers of the file and into `sr`. -/

namespace Sys2Proof.Machine

/-! ### Into registers of the file -/

/-- Settles O18: nothing stops the `LOAD` before its write, which is one register of the file. -/
theorem loadCompletes : Obligations.LoadCompletes := by
  intro s g a hg ho hadm
  rw [← effectiveAddress_eq] at hadm ⊢
  refine ⟨_, execLoad_file (writeViolates_eq_false_iff.mpr hg) (overflowTraps_eq_false_iff.mpr ho) hadm,
    RegFile.get_set_same _ _ _, fun g' hg' => ?_, fun _ _ => rfl, ⟨rfl, rfl⟩, rfl, rfl, rfl, fun _ => rfl, rfl, rfl, rfl, rfl⟩
  exact RegFile.get_set_ne _ (List.ne_of_not_mem_cons hg') _

/-- Writes into registers of the file alone are not refused, and each leaves its register's part of the address: a later write
of the same register would write the same part (R111). -/
theorem writeParts_of_file {addr : Address} {rs : List Reg} (hsr : Reg.sr ∉ rs) (s : State) :
    ∃ u, writeParts addr rs s = .ok u ∧ ∀ g, Reg.file g ∈ rs → u.regs.get g = Config.addressPart addr (.file g) := by
  induction rs generalizing s with
  | nil => exact ⟨s, rfl, fun _ hg => by cases hg⟩
  | cons r rs ih =>
    cases r with
    | sr => exact absurd List.mem_cons_self hsr
    | file g =>
      obtain ⟨u, hu, hparts⟩ :=
        ih (List.not_mem_of_not_mem_cons hsr) { s with regs := s.regs.set g (Config.addressPart addr (.file g)) }
      refine ⟨u, hu, fun g' hg' => ?_⟩
      by_cases hlater : Reg.file g' ∈ rs
      · exact hparts g' hlater
      · obtain rfl : g' = g := by simpa [hlater] using hg'
        obtain ⟨-, -, -, -, -, -, -, -, -, -, hkept, -⟩ := writeParts_frame hu
        rw [hkept g' hlater, RegFile.get_set_same]

/-- An `LDEA` that nothing stops before its writes is its writes, then completion (R111). -/
theorem execLdea_of_writeParts {d : LeaDest} {a : AddrOperand} {s u : State}
    (hv : (leaRegs d).any (writeViolates s) = false) (ho : overflowTraps s (addressCalc .ldea a s) = false)
    (hu : writeParts (effectiveAddress (addressCalc .ldea a s)) (leaRegs d) s = .ok u) :
    execLdea d a s = complete s (s.pc + 1) u := by
  simp only [execLdea, hv, ho, hu, Bool.false_eq_true, if_false]

/-- Settles O20: no write is refused, `sr` being none of the destinations, and the writes touch the destinations only. -/
theorem ldeaCompletes : Obligations.LdeaCompletes := by
  intro s d a hsr hd ho
  rw [← effectiveAddress_eq]
  have hv : (leaRegs d).any (writeViolates s) = false :=
    List.any_eq_false.mpr fun r hr => by simp [writeViolates_eq_false_iff.mpr (hd r hr)]
  obtain ⟨u, hu, hparts⟩ := writeParts_of_file (addr := effectiveAddress (addressCalc .ldea a s)) hsr s
  obtain ⟨-, hsaved, hpending, -, hmem, htext, hlabels, henv, -, hparams, hregs, hsame, -, hwait⟩ := writeParts_frame hu
  exact ⟨_, execLdea_of_writeParts hv (overflowTraps_eq_false_iff.mpr ho) hu, hparts, hregs,
    fun j _ => congrArg (·.getLsbD j) (hsame hsr), ⟨rfl, rfl⟩, hsaved, hwait, hpending,
    fun x => congrArg (·.read x) hmem, htext, hlabels, henv, hparams⟩

/-! ### Into `sr` -/

/-- An instruction whose last act is an admitted write of `v` to `sr` completes with `v` by the masked write, and changes no
register (R26, R112). -/
theorem completes_of_write_sr {s : State} {v : Word} {o : Out} (hadm : SrWriteAdmitted s v)
    (hok : ∀ u, writeReg .sr v s = .ok u → o = complete s (s.pc + 1) u) :
    ∃ t, o = .next t ∧ SrWritten v s t ∧ SameRegsExcept [] s t ∧ CompletedAt (s.pc + 1) s t ∧ SameRest s t :=
  ⟨_, hok _ (writeReg_sr_of_admitted (srWriteRefusal_of_admitted hadm)), fun j _ => getLsbD_maskedWrite _ _ j,
    fun _ _ => rfl, ⟨rfl, rfl⟩, rfl, rfl, rfl, fun _ => rfl, rfl, rfl, rfl, rfl⟩

/-- Settles O19: nothing stops the `LOAD` before its write, which is the admitted one of the value read. -/
theorem loadIntoStatusRegister : Obligations.LoadIntoStatusRegister := by
  intro s a ho ha hadm
  rw [← effectiveAddress_eq] at ha hadm ⊢
  exact completes_of_write_sr hadm
    (execLoad_of_write (writeViolates_of_not_high s rfl) (overflowTraps_eq_false_iff.mpr ho) ha).1

/-- Settles O21: nothing stops the `LDEA` before its write, which is the admitted one of `sr`'s part of the address. -/
theorem ldeaIntoStatusRegister : Obligations.LdeaIntoStatusRegister := by
  intro s a ho hadm
  rw [← effectiveAddress_eq] at hadm ⊢
  exact completes_of_write_sr hadm
    (execLdea_reg_of_write (writeViolates_of_not_high s rfl) (overflowTraps_eq_false_iff.mpr ho)).1

end Sys2Proof.Machine
end

section
/-! SUPPORT and settled statements of 42_branch.md: the conditions, `BRAN`, and the conditions after a compare. -/

namespace Sys2Proof.Machine

/-! ### The conditions -/

/-- Settles O24: a code tests one flag, or the absence of one, or combines two or three of them. -/
theorem conditionCodes : Obligations.ConditionCodes := by
  intro sr cc
  cases cc with
  | eq | negSet | carrySet | overflowSet => exact Iff.rfl
  | ne | negClear | carryClear | overflowClear => exact (Bool.not_eq_true' _).to_iff
  | unsignedHigher =>
    exact Bool.and_eq_true_iff.trans (and_congr (Bool.not_eq_true' _).to_iff (Bool.not_eq_true' _).to_iff)
  | unsignedLowerOrSame => exact Bool.or_eq_true_iff
  | signedGreaterOrEqual => exact beq_iff_eq
  | signedLess => exact bne_iff_ne
  | signedGreater => exact Bool.and_eq_true_iff.trans (and_congr (Bool.not_eq_true' _).to_iff beq_iff_eq)
  | signedLessOrEqual => exact Bool.or_eq_true_iff.trans (or_congr Iff.rfl bne_iff_ne)

/-! ### `BRAN` -/

/-- A taken branch to a defined label completes there (R120). -/
theorem exec_bran_taken {cc : Cond} {l : Label} {s : State} {target : PC} (hc : condTrue s.sr cc)
    (hl : labelTarget s.labels l = some target) : exec (.bran cc l) s = complete s target s := by
  have hholds := (conditionCodes s.sr cc).mpr hc
  change execBran cc l s = _
  simp only [execBran, hholds, hl, if_true]

/-- A taken branch to an undefined label is refused (log 3). -/
theorem exec_bran_undefined {cc : Cond} {l : Label} {s : State} (hc : condTrue s.sr cc)
    (hl : labelTarget s.labels l = none) : exec (.bran cc l) s = .refused .undefinedLabel := by
  have hholds := (conditionCodes s.sr cc).mpr hc
  change execBran cc l s = _
  simp only [execBran, hholds, hl, if_true]

/-- A branch not taken completes at the next line, its label defined or not (R120). -/
theorem exec_bran_not_taken {cc : Cond} {l : Label} {s : State} (hc : ¬condTrue s.sr cc) :
    exec (.bran cc l) s = complete s (s.pc + 1) s :=
  if_neg (mt (conditionCodes s.sr cc).mp hc)

/-- An instruction that only completes changes no register, nothing of `sr` and nothing of the rest. -/
theorem complete_self_frame (s : State) (pc : PC) :
    ∃ t, complete s pc s = .next t ∧ CompletedAt pc s t ∧ SameRegsExcept [] s t ∧ SameSrExcept [] s t ∧ SameRest s t :=
  ⟨_, complete_eq s pc s, ⟨rfl, rfl⟩, fun _ _ => rfl, fun _ _ => rfl, rfl, rfl, rfl, fun _ => rfl, rfl, rfl, rfl, rfl⟩

/-- Settles O25: taken or not, the branch only completes, at its label or at the next line. -/
theorem branchByCondition : Obligations.BranchByCondition := by
  intro cc l s target hl
  by_cases hc : condTrue s.sr cc
  · obtain ⟨t, ht, hpc, hframe⟩ := complete_self_frame s target
    exact ⟨t, (exec_bran_taken hc hl).trans ht, fun _ => hpc, fun hn => absurd hc hn, hframe⟩
  · obtain ⟨t, ht, hpc, hframe⟩ := complete_self_frame s (s.pc + 1)
    exact ⟨t, (exec_bran_not_taken hc).trans ht, fun hy => absurd hy hc, fun _ => hpc, hframe⟩

/-- Settles O26: only a taken branch looks its label up. -/
theorem undefinedLabel : Obligations.UndefinedLabel := fun _ _ s hl =>
  ⟨fun hc => exec_bran_undefined hc hl, fun hc => ⟨_, (exec_bran_not_taken hc).trans (complete_eq s _ s), rfl⟩⟩

/-! ### The conditions after a compare -/

section
variable {a b : Word} {f : Flags} (h : SubFlags a b 0 f)
include h

/-- Z after a compare is equality (R83). -/
theorem SubFlags.z_iff_eq : f.z = true ↔ a = b := by
  obtain ⟨hz, -⟩ := h
  have ha := a.isLt
  have hb := b.isLt
  rw [hz, ← BitVec.toNat_inj]
  omega

/-- C after a compare, the borrow, is unsigned order (R83). -/
theorem SubFlags.c_iff_lt : f.c = true ↔ a.toNat < b.toNat := by
  obtain ⟨-, -, hc, -⟩ := h
  exact hc

/-- N and V agree after a compare exactly in signed order: N is the sign of the exact difference unless that overflows (R83). -/
theorem SubFlags.n_eq_v_iff_le : f.n = f.v ↔ b.toInt ≤ a.toInt := by
  obtain ⟨-, hn, -, hv, -⟩ := h
  have ha := a.isLt
  have hb := b.isLt
  rw [Bool.eq_iff_iff, hn, hv, BitVec.toInt_eq_toNat_cond a, BitVec.toInt_eq_toNat_cond b]
  split <;> split <;> omega

/-- On the flags of a compare each code holds exactly if the comparison it is named for does (R122 to R134). -/
theorem SubFlags.holds_iff_compareMeans (cc : Cond) : f.holds cc = true ↔ compareMeans a b cc := by
  have hz := h.z_iff_eq
  have hc := h.c_iff_lt
  have hnv := h.n_eq_v_iff_le
  obtain ⟨-, hn, -, hv, -⟩ := h
  rw [Nat.cast_zero, Int.sub_zero] at hn hv
  cases cc with
  | eq => exact hz
  | negSet => exact hn
  | carrySet => exact hc
  | overflowSet => exact hv
  | signedGreaterOrEqual => exact beq_iff_eq.trans hnv
  | ne => exact (Bool.not_eq_true' _).to_iff.trans (Bool.eq_false_iff.trans (not_congr hz))
  | negClear | carryClear | overflowClear =>
    simp only [Flags.holds, compareMeans, Bool.not_eq_true', ← Bool.not_eq_true, hn, hc, hv]
    omega
  | unsignedHigher | unsignedLowerOrSame =>
    simp only [Flags.holds, compareMeans, Bool.and_eq_true, Bool.or_eq_true, Bool.not_eq_true', ← Bool.not_eq_true,
      hz, ← BitVec.toNat_inj, hc]
    omega
  | signedLess | signedGreater | signedLessOrEqual =>
    simp only [Flags.holds, compareMeans, Bool.and_eq_true, Bool.or_eq_true, Bool.not_eq_true', ← Bool.not_eq_true,
      beq_iff_eq, bne_iff_ne, ne_eq, hz, ← BitVec.toInt_inj, hnv]
    omega
end

/-- In supervisor mode every source may be read (R32). -/
theorem sourceReadable_supervisor {s : State} (hp : srP s.sr = false) (src : Source) : sourceReadable s src = true := by
  cases src <;> simp [sourceReadable, readable, hp]

/-- In supervisor mode nothing stops a compare or test instruction from reading its operands (R32). -/
theorem testReadable_supervisor {s : State} (hp : srP s.sr = false) (o : TestOps) : testReadable s o = true := by
  simp only [testReadable, sourceReadable_supervisor hp, Bool.and_self]

/-- Settles O27: the compare leaves the flags of the difference, on which each code means its comparison. -/
theorem compareThenCondition : Obligations.CompareThenCondition := by
  intro s ra rb hp i hi
  obtain ⟨t, ht, ⟨hflags, -⟩, -⟩ := comparesComplete _ _ s rfl (testReadable_supervisor hp _) i hi
  exact ⟨t, ht, fun cc => (conditionCodes t.sr cc).symm.trans ((hflags rfl).holds_iff_compareMeans cc)⟩

end Sys2Proof.Machine
end

section
/-! SUPPORT and settled statements of 43_system.md: the system instructions, and the step at a coprocessor operation. -/

namespace Sys2Proof.Machine

/-! ### Coprocessor operations, by the branch of R143 -/

/-- An opcode is privileged, above `0x07xx`, exactly if its upper byte is more than 7 (R143). -/
theorem upperByte_gt_seven_iff (opcode : Word) : 7 < (opcode.extractLsb' 8 8).toNat ↔ 0x0800 ≤ opcode.toNat := by
  have hlt := opcode.isLt
  simp only [BitVec.extractLsb'_toNat, Nat.shiftRight_eq_div_pow]
  omega

section
variable {opcode : Word} {s : State}

/-- A privileged operation in protected mode faults (R143). -/
theorem coprocessorOperation_privileged (hp : 0x0800 ≤ opcode.toNat ∧ srP s.sr = true) :
    coprocessorOperation opcode s = .fault .privilegedCoprocessorOperation := if_pos hp

/-- An operation that may run is refused where `COPROC` has no value for it (log 29). -/
theorem coprocessorOperation_unmodelled (hp : ¬(0x0800 ≤ opcode.toNat ∧ srP s.sr = true))
    (hf : Config.coproc s.draws opcode s.regs = none) :
    coprocessorOperation opcode s = .refused .coprocessorUnmodelled := by
  rw [coprocessorOperation, if_neg hp, hf]

/-- An operation that may run completes with the registers `COPROC` gives, in protected mode less the high members (R143; log 29). -/
theorem coprocessorOperation_modelled (hp : ¬(0x0800 ≤ opcode.toNat ∧ srP s.sr = true)) {f : RegFile}
    (hf : Config.coproc s.draws opcode s.regs = some f) :
    coprocessorOperation opcode s =
      complete s (s.pc + 1) { countDraws s with regs := if srP s.sr then s.regs.keepHigh f else f } := by
  rw [coprocessorOperation, if_neg hp, hf]

/-- The registers a coprocessor operation leaves, one by one (R18, R57; log 29). -/
theorem get_coprocessorRegs (protect : Bool) (old new : RegFile) (g : FileReg) :
    (if protect then old.keepHigh new else new).get g =
      if isHighFile g = true ∧ protect = true then old.get g else new.get g := by
  cases protect with
  | true => simp [RegFile.get_keepHigh]
  | false => simp

theorem fetchTurn_of_coprocessor (h : s.text[s.pc]? = some (.coprocessor opcode)) :
    fetchTurn s = .settled (coprocessorOperation opcode s) := by
  simp [fetchTurn, fetch, readLine, h]

/-- On the turn of a CPU that is to execute, the step at a coprocessor operation performs it, the event used up (R76, R143). -/
theorem step_coprocessor (ht : CpuTurn s) (hh : srH s.sr = false) (hw : srW s.sr = false) (hd : s.traceDue = false)
    (hl : s.text[s.pc]? = some (.coprocessor opcode)) : step s = coprocessorOperation opcode (dropEvent s) :=
  step_of_settled ((boundary_eq_fetchTurn ht hh hw hd).trans (fetchTurn_of_coprocessor hl))
end

/-- Settles O32: the step performs the operation, which the privilege of its opcode and the value of `COPROC` decide. -/
theorem coprocessorBoundary : Obligations.CoprocessorBoundary := by
  intro opcode s ht hh hw hd hl
  simp only [step_coprocessor ht hh hw hd hl, upperByte_gt_seven_iff]
  split
  next hp => exact coprocessorOperation_privileged hp
  next hp =>
  split
  next hf => exact coprocessorOperation_unmodelled hp hf
  next f hf =>
    exact ⟨_, coprocessorOperation_modelled (s := dropEvent s) hp hf, get_coprocessorRegs _ _ _, fun _ _ => rfl, ⟨rfl, rfl⟩,
      rfl, rfl, rfl, fun _ => rfl, rfl, rfl, rfl, rfl⟩

/-! ### The system instructions, by the mode and the feature -/

section
variable {s : State}

theorem exec_wait_protected (hp : srP s.sr = true) : exec .wait s = .refused .systemInstructionInProtectedMode := if_pos hp

/-- `WAIT` in supervisor mode sets W, keeps its position and completes (R140; log 11). -/
theorem exec_wait_supervisor (hp : srP s.sr = false) :
    exec .wait s = complete s (s.pc + 1) { s with sr := setBit s.sr 12 true, waitAt := some s.pc } :=
  if_neg (Bool.eq_false_iff.mp hp)

theorem exec_halt_unimplemented (hf : s.params.hasHalt = false) : exec .halt s = .fault .haltNotImplemented :=
  if_pos (by rw [hf]; rfl)

/-- `HALT`, where implemented, is decided by the mode (R141). -/
theorem exec_halt_implemented (hf : s.params.hasHalt = true) :
    exec .halt s =
      if srP s.sr then .refused .systemInstructionInProtectedMode
      else .next { s with sr := setBit s.sr 13 true, pc := s.pc + 1, traceDue := false } :=
  if_neg (by rw [hf]; decide)

theorem exec_rete_protected (hp : srP s.sr = true) : exec .rete s = .refused .systemInstructionInProtectedMode := if_pos hp

/-- `RETE` in supervisor mode is the return from a trap (R142). -/
theorem exec_rete_supervisor (hp : srP s.sr = false) : exec .rete s = returnFromTrap s := if_neg (Bool.eq_false_iff.mp hp)

/-! ### The return from a trap, by the saved context -/

theorem returnFromTrap_empty (hs : s.saved = none) : returnFromTrap s = .refused .reteWithoutSavedSr := by
  rw [returnFromTrap, hs]

/-- The return from a trap restores the saved `sr` and return point, where that does not turn on a missing T (R142, R153; log 24). -/
theorem returnFromTrap_admitted {c : Saved} (hs : s.saved = some c)
    (ht : srT c.sr = true → srT s.sr = true ∨ s.params.hasTrace = true) :
    returnFromTrap s = complete s c.ret { s with sr := c.sr, saved := none } := by
  have hon : ¬(turnsOn srT s.sr c.sr && !s.params.hasTrace) = true := by
    rw [Bool.and_eq_true, turnsOn_iff, Bool.not_eq_true']
    rintro ⟨⟨hold, hnew⟩, htrace⟩
    rcases ht hnew with h | h
    · exact absurd (hold.symm.trans h) (by decide)
    · exact absurd (htrace.symm.trans h) (by decide)
  rw [returnFromTrap, hs]
  exact if_neg hon

/-- The return from a trap is refused where it would turn on T without `HAS_TRACE` (R153; log 24). -/
theorem returnFromTrap_without_trace {c : Saved} (hs : s.saved = some c) (hnew : srT c.sr = true) (hold : srT s.sr = false)
    (htrace : s.params.hasTrace = false) : returnFromTrap s = .refused .traceNotImplemented := by
  rw [returnFromTrap, hs]
  exact if_pos (by rw [turnsOn_iff.mpr ⟨hold, hnew⟩, htrace]; rfl)
end

/-! ### The settled statements -/

/-- Replacing one bit of `sr` keeps the others. -/
theorem sameSrExcept_of_setBit {s t : State} {i : Nat} {b : Bool} (hi : i < 16) (h : t.sr = setBit s.sr i b) :
    SameSrExcept [i] s t := by
  intro j hj
  rw [h, getLsbD_setBit hi, if_neg (List.ne_of_not_mem_cons hj)]

/-- Settles O28: nothing stops `WAIT` in supervisor mode, and W is the one bit it replaces. -/
theorem waitCompletes : Obligations.WaitCompletes := fun s hp =>
  ⟨_, exec_wait_supervisor hp, srW_setW s.sr true, sameSrExcept_of_setBit (b := true) (by decide) rfl, fun _ _ => rfl,
    ⟨rfl, rfl⟩, rfl,
    rfl, rfl, rfl, fun _ => rfl, rfl, rfl, rfl, rfl⟩

/-- Settles O29: nothing stops `HALT` in supervisor mode where it is implemented, and H is the one bit it replaces. -/
theorem haltCompletes : Obligations.HaltCompletes := fun s hp hf =>
  ⟨_, (exec_halt_implemented hf).trans (if_neg (Bool.eq_false_iff.mp hp)), srH_setH s.sr true, rfl, rfl,
    sameSrExcept_of_setBit (b := true) (by decide) rfl, fun _ _ => rfl, rfl, rfl, rfl, fun _ => rfl, rfl, rfl, rfl, rfl⟩

/-- Settles O30: `RETE` in supervisor mode is the return from a trap, which the premise on T admits. -/
theorem reteCompletes : Obligations.ReteCompletes := fun _ _ hp hs ht =>
  ⟨_, (exec_rete_supervisor hp).trans (returnFromTrap_admitted hs ht), rfl, rfl, rfl, ⟨rfl, rfl⟩, fun _ _ => rfl,
    fun _ => rfl, rfl, rfl, rfl, rfl, rfl⟩

/-- Settles O31: each stop is the branch its premises choose. -/
theorem systemInstructionStops : Obligations.SystemInstructionStops := fun _ =>
  ⟨exec_wait_protected, exec_rete_protected, exec_halt_unimplemented,
    fun hf hp => (exec_halt_implemented hf).trans (if_pos hp),
    fun hp hs => (exec_rete_supervisor hp).trans (returnFromTrap_empty hs),
    fun _ hp hs hnew hold htrace => (exec_rete_supervisor hp).trans (returnFromTrap_without_trace hs hnew hold htrace)⟩

end Sys2Proof.Machine
end

section
/-! SUPPORT and settled statements of 60_exceptions.md. This part: every step keeps the invariant of the machine. -/

namespace Sys2Proof.Machine

/-- What the invariant asks of a CPU that is not halted. -/
theorem machineInv_of_not_halted {t : State} (hmem : t.mem.wf = true) (hquiet : savedQuiet t = true)
    (hh : srH t.sr = false) (htrace : t.traceDue = true → t.params.hasTrace = true)
    (hwait : t.waitAt.isSome = true → srW t.sr = true) : MachineInv t :=
  ⟨hmem, hquiet, fun h => absurd h (Bool.eq_false_iff.mp hh), htrace, hwait⟩

/-- A context saved while the CPU is not halted holds neither W nor H (R158 steps 1 and 2). -/
theorem savedQuiet_of_trap {s t : State} {ret : PC} (hh : srH s.sr = false)
    (hs : t.saved = some { sr := savedSr s.sr, ret := ret }) : savedQuiet t = true := by
  simp [savedQuiet, hs, hh]

/-- A trap of a CPU that is not halted keeps the invariant: it saves a quiet context and ends the wait (R158). -/
theorem trapEntry_machineInv {k : TrapKind} {ret : PC} {s t : State} (hinv : MachineInv s) (hh : srH s.sr = false)
    (h : trapEntry k ret s = .next t) : MachineInv t := by
  obtain ⟨hmem, -, -, htrace, -⟩ := hinv
  obtain ⟨-, rfl⟩ := trapEntry_next h
  exact machineInv_of_not_halted hmem (savedQuiet_of_trap hh rfl) ((srH_handlerSr _ _ _).trans hh) htrace
    (fun hsome => by cases hsome)

/-- A taken `Trace` keeps the invariant; that it is no longer due asks nothing (R153). -/
theorem takeTrace_machineInv {s t : State} (hinv : MachineInv s) (hh : srH s.sr = false) (h : takeTrace s = .next t) :
    MachineInv t := by
  obtain ⟨hmem, hquiet, -, -, hwait⟩ := hinv
  exact trapEntry_machineInv (s := { s with traceDue := false })
    (machineInv_of_not_halted hmem hquiet hh (fun hdue => by cases hdue) hwait) hh h

/-- A `Trace` is made due only where trace mode is implemented (R153). -/
theorem hasTrace_of_due {s t : State} (hdue : t.traceDue = (s.params.hasTrace && srT s.sr))
    (hparams : t.params = s.params) : t.traceDue = true → t.params.hasTrace = true := by
  rw [hdue, hparams, Bool.and_eq_true]
  exact And.left

/-- No instruction but HALT and RETE turns H on (R29, R80). -/
theorem Ordinary.srH_eq_false {i : Instr} {s t : State} (ho : Ordinary i s t) (hh : srH s.sr = false) :
    srH t.sr = false := by
  rcases ho.sr with ⟨-, hn, -⟩ | ⟨-, hkept⟩
  · obtain ⟨-, hon, -⟩ := srWriteRefusal_none hn
    exact Bool.eq_false_iff.mpr fun h => absurd (hon h) (Bool.eq_false_iff.mp hh)
  · exact (hkept 13 (by decide)).trans hh

/-- A CPU that executes waits in no `WAIT` (R165). -/
theorem waitAt_of_executing {s : State} (hinv : MachineInv s) (hw : srW s.sr = false) : s.waitAt.isSome = false := by
  obtain ⟨-, -, -, -, hwait⟩ := hinv
  exact Bool.eq_false_iff.mpr fun h => absurd (hwait h) (Bool.eq_false_iff.mp hw)

/-- A saved context that is quiet, taken back as `sr`, leaves the CPU running (R142). -/
theorem srH_saved_of_quiet {s : State} {c : Saved} (hquiet : savedQuiet s = true) (hc : s.saved = some c) :
    srH c.sr = false := by
  simp only [savedQuiet, hc, Bool.and_eq_true, Bool.not_eq_true'] at hquiet
  exact hquiet.2

/-- An instruction run by a CPU that neither is halted nor waits keeps the invariant. -/
theorem exec_machineInv {i : Instr} {s t : State} (hinv : MachineInv s) (hh : srH s.sr = false) (hw : srW s.sr = false)
    (h : exec i s = .next t) : MachineInv t := by
  have hnowait := waitAt_of_executing hinv hw
  have ⟨hmem, hquiet, _, _, hwait⟩ := hinv
  cases exec_next h with
  | trap ht =>
    rcases ht with ht | ht
    · exact trapEntry_machineInv hinv hh ht
    · exact trapEntry_machineInv hinv hh ht
  | ordinary ho =>
    refine machineInv_of_not_halted (ho.mem ▸ hmem) ?_ (ho.srH_eq_false hh) (hasTrace_of_due ho.traceDue ho.params) ?_
    · simpa only [savedQuiet, ho.saved] using hquiet
    · simp [ho.waitAt, hnowait]
  | wait _ _ ht =>
    subst ht
    exact machineInv_of_not_halted hmem hquiet ((srH_setW _ _).trans hh) (hasTrace_of_due (s := s) rfl rfl)
      (fun _ => srW_setW _ _)
  | halt _ _ hhalt ht =>
    subst ht
    exact ⟨hmem, hquiet, fun _ => ⟨hhalt, rfl⟩, (fun hdue => by cases hdue), fun hsome => (srW_setH _ _).trans (hwait hsome)⟩
  | rete _ _ c hc ht =>
    subst ht
    exact machineInv_of_not_halted hmem rfl (srH_saved_of_quiet hquiet hc) (hasTrace_of_due (s := s) rfl rfl)
      (fun hsome => absurd hsome (Bool.eq_false_iff.mp hnowait))

/-- A coprocessor operation keeps the invariant: of what the invariant speaks of it changes the due `Trace` only (log 29). -/
theorem coprocessorOperation_machineInv {c : Word} {s t : State} (hinv : MachineInv s) (hh : srH s.sr = false)
    (h : coprocessorOperation c s = .next t) : MachineInv t := by
  obtain ⟨hmem, hquiet, -, -, hwait⟩ := hinv
  obtain ⟨-, f, -, rfl⟩ := coprocessorOperation_next h
  exact machineInv_of_not_halted hmem hquiet hh (hasTrace_of_due (s := s) rfl rfl) hwait

/-- A reset keeps memory and leaves nothing saved, due or waited in (R180 to R182; log 23). -/
theorem resetCpu_machineInv {s : State} (hinv : MachineInv s) : MachineInv (resetCpu s) := by
  obtain ⟨hmem, -, -, -, -⟩ := hinv
  exact machineInv_of_not_halted hmem rfl (srH_resetSr _) (fun hdue => by cases hdue) (fun hsome => by cases hsome)

/-- A raised request changes nothing the invariant speaks of (R35). -/
theorem raiseRequest_machineInv {q : Priority} {s : State} (hinv : MachineInv s) : MachineInv (raiseRequest q s) := by
  rw [raiseRequest_eq]
  exact hinv

/-- Settles O51 by the case analysis of a step; the invariant does not speak of the environment's events, which a step uses up. -/
theorem stepKeepsInvariant : Obligations.StepKeepsInvariant := by
  intro s t hinv h
  cases step_next h with
  | raised q es _ ht => subst ht; exact raiseRequest_machineInv (s := { s with env := es }) hinv
  | withdrawn q es _ ht => subst ht; exact hinv
  | reset es _ ht => subst ht; exact resetCpu_machineInv (s := { s with env := es }) hinv
  | idle es ht => subst ht; exact hinv
  | blank es ht => subst ht; exact hinv
  | interrupt es hh q ret ht => exact trapEntry_machineInv (s := { s with env := es }) hinv hh ht
  | trace es hh ht => exact takeTrace_machineInv (s := { s with env := es }) hinv hh ht
  | instr es hh hw _ i line _ _ ht => exact exec_machineInv (s := { s with env := es }) hinv hh hw ht
  | coprocessor es hh _ _ c line _ _ ht => exact coprocessorOperation_machineInv (s := { s with env := es }) hinv hh ht

end Sys2Proof.Machine
end

section
/-! SUPPORT and settled statements of 60_exceptions.md. This part: the changes of mode. -/

namespace Sys2Proof.Machine

/-- A line that stands for an instruction holds it as a text or as a well-formed term (log 41). -/
theorem runsNext_of_readLine {s : State} {line : Line} {i : Instr} (hl : s.text[s.pc]? = some line)
    (hi : readLine line = .ok (.instr i)) : RunsNext s i := by
  cases line with
  | text l =>
    simp only [readLine] at hi
    split at hi
    next j hj => cases hi; exact .inl ⟨l, hl, hj⟩
    · cases hi
  | term j =>
    simp only [readLine] at hi
    split at hi
    next hwf => cases hi; exact .inr ⟨hl, hwf⟩
    · cases hi
  | coprocessor c => cases hi

/-- What writes `sr` (R28): a step that is no reset leaves it, or takes a trap, or runs the instruction at the pc. -/
theorem step_sr_cases {s t : State} (hreset : ∀ es, s.env ≠ .reset :: es) (h : step s = .next t) :
    t.sr = s.sr ∨ (∃ k ret, TrapTaken k ret s t) ∨ ∃ i es, RunsNext s i ∧ exec i { s with env := es } = .next t := by
  cases step_next h with
  | raised q es _ ht => subst ht; exact .inl (raiseRequest_sr q _)
  | withdrawn q es _ ht => subst ht; exact .inl rfl
  | reset es he => exact absurd he (hreset es)
  | idle es ht => subst ht; exact .inl rfl
  | blank es ht => subst ht; exact .inl rfl
  | interrupt es _ q ret ht => exact .inr (.inl ⟨_, _, trapEntry_taken (s := { s with env := es }) ht⟩)
  | trace es _ ht => exact .inr (.inl ⟨_, _, trapEntry_taken (s := { s with env := es, traceDue := false }) ht⟩)
  | instr es _ _ _ i line hl hi ht => exact .inr (.inr ⟨i, es, runsNext_of_readLine hl hi, ht⟩)
  | coprocessor es _ _ _ c line _ _ ht =>
    obtain ⟨-, f, -, rfl⟩ := coprocessorOperation_next ht
    exact .inl rfl

/-- A trap enters supervisor mode (R158 step 3). -/
theorem trapEntry_supervisor {k : TrapKind} {ret : PC} {s t : State} (h : trapEntry k ret s = .next t) :
    srP t.sr = false := by
  obtain ⟨-, rfl⟩ := trapEntry_next h
  exact srP_handlerSr _ _ _

/-- An instruction that enters protected mode is RETE or has destination `sr` (R164). -/
theorem exec_enters_protected {i : Instr} {s t : State} (hp : srP s.sr = false) (hp' : srP t.sr = true)
    (h : exec i s = .next t) : i = .rete ∨ Reg.sr ∈ destinations i := by
  by_contra hother
  obtain ⟨hrete, hdest⟩ := not_or.mp hother
  have hstays : srP t.sr = false := by
    cases exec_next h with
    | trap ht =>
      rcases ht with ht | ht
      · exact trapEntry_supervisor ht
      · exact trapEntry_supervisor ht
    | ordinary ho =>
      rcases ho.sr with ⟨hsr, -⟩ | ⟨-, hkept⟩
      · exact absurd hsr hdest
      · exact (hkept 8 (by decide)).trans hp
    | wait _ _ ht => subst ht; exact (srP_setW _ _).trans hp
    | halt _ _ _ ht => subst ht; exact (srP_setH _ _).trans hp
    | rete hi => exact absurd hi hrete
  exact absurd hp' (Bool.eq_false_iff.mp hstays)

/-- Settles O54: of what writes `sr`, a trap leaves supervisor mode, and an instruction started in protected mode keeps P. -/
theorem modeChanges : Obligations.ModeChanges := by
  intro s t hreset h
  rcases step_sr_cases hreset h with hsr | ⟨k, ret, htrap⟩ | ⟨i, es, hruns, hexec⟩
  · rw [hsr]
    exact ⟨fun h1 h0 => absurd h1 (Bool.eq_false_iff.mp h0), fun h0 h1 => absurd h1 (Bool.eq_false_iff.mp h0)⟩
  · refine ⟨fun _ _ => ⟨k, ret, htrap⟩, fun _ h1 => ?_⟩
    obtain ⟨-, -, h0, -⟩ := htrap
    exact absurd h1 (Bool.eq_false_iff.mp h0)
  · refine ⟨fun h1 h0 => ?_, fun h0 h1 => ⟨i, hruns, exec_enters_protected (s := { s with env := es }) h0 h1 hexec⟩⟩
    rcases protectedModeKeepsUpperByte i { s with env := es } t h1 hexec with hkept | htrap
    · exact absurd ((hkept 8 (by decide)).trans h1) (Bool.eq_false_iff.mp h0)
    · exact htrap

end Sys2Proof.Machine
end

section
/-! SUPPORT and settled statements of 60_exceptions.md. This part: taking a trap and returning from it. -/

namespace Sys2Proof.Machine

/-- With the slot empty a trap of any kind is taken, and the due `Trace`, the environment and the draws stay (R158, R161). -/
theorem trapEntry_taken_of_empty (k : TrapKind) (ret : PC) {s : State} (hs : s.saved = none) :
    ∃ t, trapEntry k ret s = .next t ∧ TrapTaken k ret s t ∧
      t.env = s.env ∧ t.traceDue = s.traceDue ∧ t.draws = s.draws :=
  have ht := trapEntry_of_empty k ret hs
  ⟨_, ht, trapEntry_taken ht, rfl, rfl, rfl⟩

/-- Settles O33: the save slot decides whether the trap is taken or refused. -/
theorem trapEntryEffects : Obligations.TrapEntryEffects := by
  intro k ret s
  split
  next hs => exact trapEntry_of_full k ret hs
  next hs => exact trapEntry_taken_of_empty k ret hs

/-- While the CPU does not wait, the `sr` saved is the whole `sr` (R158 steps 1 and 2). -/
theorem savedSr_of_not_waiting {sr : Word} (hw : srW sr = false) : savedSr sr = sr := setBit_self sr (by decide) hw

/-- The context a trap saves (R158 steps 1 and 2, R160). -/
theorem trapEntry_saved {k : TrapKind} {ret : PC} {s t : State} (h : trapEntry k ret s = .next t) :
    t.saved = some { sr := savedSr s.sr, ret := ret } := by
  obtain ⟨-, rfl⟩ := trapEntry_next h
  rfl

/-- Settles O35: the handler runs in supervisor mode, so its RETE is the return to the context saved, which is that of `s`. -/
theorem trapThenReteRestores : Obligations.TrapThenReteRestores := by
  intro k ret s hs hw htrace
  obtain ⟨t, ht, -⟩ := trapEntry_taken_of_empty k ret hs
  have hsaved := trapEntry_saved ht
  rw [savedSr_of_not_waiting hw] at hsaved
  have hregs : t.regs = s.regs := trapEntry_regs ht
  have hadmitted : srT s.sr = true → srT t.sr = true ∨ t.params.hasTrace = true := fun hT =>
    .inr ((trapEntry_sameStored ht).params ▸ htrace hT)
  have hrete := (exec_rete_supervisor (trapEntry_supervisor ht)).trans (returnFromTrap_admitted hsaved hadmitted)
  exact ⟨t, _, ht, hrete, rfl, rfl, hregs, rfl⟩

end Sys2Proof.Machine
end

section
/-! SUPPORT and settled statements of 60_exceptions.md. This part: which pending request is taken. -/

namespace Sys2Proof.Machine

/-- The test by which the model chooses is that a request may be taken (R156). -/
theorem takeable_iff {s : State} {q : Priority} :
    (s.pending.contains q && priorityExists s.params q && !masked s.sr q) = true ↔ Takeable s q := by
  rw [Bool.and_eq_true, Bool.and_eq_true, Bool.not_eq_true', List.contains_iff_mem, priorityExists_iff, and_assoc]
  rfl

theorem mem_prioritiesDown (q : Priority) : q ∈ prioritiesDown := by cases q <;> decide

/-- The list of the priorities goes down (R157). -/
theorem prioritiesDown_sorted : prioritiesDown.Pairwise (fun q q' => rank q' ≤ rank q) := by decide

/-- The first element of a list sorted downwards that passes a test ranks highest among those that pass. -/
theorem rank_le_of_find? {p : Priority → Bool} {l : List Priority} (hl : l.Pairwise (fun q q' => rank q' ≤ rank q))
    {q q' : Priority} (hq : l.find? p = some q) (hmem : q' ∈ l) (hq' : p q' = true) : rank q' ≤ rank q := by
  obtain ⟨-, before, after, rfl, hbefore⟩ := List.find?_eq_some_iff_append.mp hq
  obtain ⟨-, hafter, -⟩ := List.pairwise_append.mp hl
  rcases List.mem_append.mp hmem with hin | hin
  · exact absurd hq' (by simpa using hbefore q' hin)
  · rcases List.mem_cons.mp hin with rfl | hin
    · exact le_rfl
    · exact List.rel_of_pairwise_cons hafter hin

/-- The request chosen may be taken, and none that may be taken ranks higher (R157). -/
theorem chosenRequest_some {s : State} {q : Priority} (h : chosenRequest s = some q) :
    Takeable s q ∧ ∀ q', Takeable s q' → rank q' ≤ rank q :=
  ⟨takeable_iff.mp (List.find?_some h :),
    fun q' hq' => rank_le_of_find? prioritiesDown_sorted h (mem_prioritiesDown q') (takeable_iff.mpr hq')⟩

/-- No request is chosen exactly if none may be taken (R156). -/
theorem chosenRequest_eq_none_iff {s : State} : chosenRequest s = none ↔ ¬∃ q, Takeable s q := by
  simp only [chosenRequest, List.find?_eq_none, takeable_iff, mem_prioritiesDown, forall_const, not_exists]

/-- The return point of an interrupt is the one the statement names (R160; log 11). -/
theorem interruptReturn_eq (s : State) : interruptReturn s = interruptReturnPoint s := by
  unfold interruptReturn interruptReturnPoint
  cases s.params.waitReturn <;> cases s.waitAt <;> rfl

/-- The step at an accepting boundary, the event used up (R156). -/
theorem step_accept {s : State} {es : List EnvEvent} (he : s.env = .accept :: es) :
    step s = acceptInterrupt (dropEvent s) :=
  step_of_settled (by simp [boundary, dropEvent, he])

/-- Where the CPU is not halted, an accepting boundary comes to the request chosen (R156, R166). -/
theorem acceptInterrupt_some {s : State} {q : Priority} (hh : srH s.sr = false) (hq : chosenRequest s = some q) :
    acceptInterrupt s = trapEntry (.interrupt q) (interruptReturnPoint s) s := by
  simp [acceptInterrupt, hh, hq, interruptReturn_eq]

theorem acceptInterrupt_none {s : State} (hh : srH s.sr = false) (hq : chosenRequest s = none) :
    acceptInterrupt s = .next s := by
  simp [acceptInterrupt, hh, hq]

/-- Settles O37: the boundary takes the request chosen, and one is chosen if any may be taken. -/
theorem acceptanceTakesHighest : Obligations.AcceptanceTakesHighest := by
  intro s es he hh hs
  rw [step_accept he]
  refine ⟨fun hany => ?_, fun hnone => acceptInterrupt_none hh (chosenRequest_eq_none_iff.mpr hnone)⟩
  obtain ⟨q, hq⟩ : ∃ q, chosenRequest (dropEvent s) = some q :=
    Option.ne_none_iff_exists'.mp fun hnone => chosenRequest_eq_none_iff.mp hnone hany
  obtain ⟨htakeable, hhighest⟩ := chosenRequest_some hq
  obtain ⟨t, ht, htaken, -⟩ :=
    trapEntry_taken_of_empty (.interrupt q) (interruptReturnPoint s) (s := dropEvent s) hs
  exact ⟨q, t, htakeable, hhighest, (acceptInterrupt_some (s := dropEvent s) hh hq).trans ht, htaken⟩

end Sys2Proof.Machine
end

section
/-! SUPPORT and settled statements of 60_exceptions.md. This part: the CPU's turn when it does not execute,
and when a `Trace` is due. -/

namespace Sys2Proof.Machine

/-- When it is the CPU's turn the boundary is that turn, the environment's event used up (R3, R156). -/
theorem boundary_eq_cpuTurn {s : State} (ht : CpuTurn s) : boundary s = cpuTurn (dropEvent s) := by
  rcases ht with he | ⟨es, he⟩
  · simp [boundary, he, dropEvent_of_no_event he]
  · simp [boundary, dropEvent, he]

/-- When it is the CPU's turn, a step is what the turn settles. -/
theorem step_of_cpuTurn {s : State} {o : Out} (ht : CpuTurn s) (h : cpuTurn (dropEvent s) = .settled o) : step s = o :=
  step_of_settled ((boundary_eq_cpuTurn ht).trans h)

/-- A step of a halted CPU but a reset changes the pending requests alone, the event used up (R166). -/
theorem step_halted {s : State} (hh : srH s.sr = true) (hreset : ∀ es, s.env ≠ .reset :: es) :
    ∃ pending, step s = .next { dropEvent s with pending := pending } := by
  have hidle (ht : CpuTurn s) : step s = .next (dropEvent s) := step_of_cpuTurn ht (cpuTurn_halted hh)
  cases he : s.env with
  | nil => exact ⟨s.pending, hidle (.inl he)⟩
  | cons event es =>
    cases event with
    | proceed => exact ⟨s.pending, hidle (.inr ⟨es, he⟩)⟩
    | raise q => exact ⟨_, (step_raise he).trans (congrArg _ (raiseRequest_eq q _))⟩
    | withdraw q => exact ⟨_, step_withdraw he⟩
    | accept => exact ⟨s.pending, (step_accept he).trans (if_pos hh)⟩
    | reset => exact absurd he (hreset es)

/-- Settles O38: the pending requests are the one field of the CPU a step changes. -/
theorem haltedUntilReset : Obligations.HaltedUntilReset := by
  intro s t hh hreset h
  obtain ⟨pending, hstep⟩ := step_halted hh hreset
  rw [h] at hstep
  cases hstep
  exact ⟨rfl, rfl, rfl, rfl, rfl, rfl, rfl, rfl⟩

/-- Settles O39: the turn of a waiting CPU is the idle one. -/
theorem waitingExecutesNothing : Obligations.WaitingExecutesNothing := fun _ hw hh hd ht =>
  step_of_cpuTurn ht (cpuTurn_waiting (Bool.eq_false_iff.mp hh) (Bool.eq_false_iff.mp hd) hw)

/-- Settles O40: the turn of the CPU is the `Trace` trap, which the empty slot lets it take. -/
theorem dueTraceIsTaken : Obligations.DueTraceIsTaken := by
  intro s hd hh hs ht
  have hstep : step s = takeTrace (dropEvent s) := step_of_cpuTurn ht (cpuTurn_trace (Bool.eq_false_iff.mp hh) hd)
  obtain ⟨t, htrap, htaken, -, hdue, -⟩ :=
    trapEntry_taken_of_empty .trace s.pc (s := { dropEvent s with traceDue := false }) hs
  exact ⟨t, hstep.trans htrap, htaken, hdue⟩

/-- A trap fills the empty slot and leaves the due `Trace` as it was (R158, R157; log 21). -/
theorem trapEntry_fills {k : TrapKind} {ret : PC} {s t : State} (h : trapEntry k ret s = .next t) :
    (s.saved = none ∧ t.saved ≠ none) ∧ t.traceDue = s.traceDue := by
  obtain ⟨hs, rfl⟩ := trapEntry_next h
  exact ⟨⟨hs, Option.some_ne_none _⟩, rfl⟩

/-- An instruction that is not HALT and fills no empty slot makes a `Trace` due exactly by the T of its start (R153, R80). -/
theorem traceDue_iff_of_completed {i : Instr} {s t : State} (hp : s.params.hasTrace = true) (hi : i ≠ .halt)
    (hdue : t.traceDue = (s.params.hasTrace && srT s.sr)) (hslot : ¬(s.saved = none ∧ t.saved ≠ none)) :
    t.traceDue = true ↔ (srT s.sr = true ∧ i ≠ .halt ∧ ¬(s.saved = none ∧ t.saved ≠ none)) := by
  rw [hdue, hp, Bool.true_and]
  exact ⟨fun hT => ⟨hT, hi, hslot⟩, And.left⟩

/-- Settles O41: a trap fills the slot and makes nothing due, HALT makes nothing due, and every other instruction completes. -/
theorem traceAfterEveryInstruction : Obligations.TraceAfterEveryInstruction := by
  intro i s t hp hd h
  cases exec_next h with
  | trap ht =>
    have ⟨hslot, hdue⟩ : (s.saved = none ∧ t.saved ≠ none) ∧ t.traceDue = s.traceDue :=
      ht.elim trapEntry_fills trapEntry_fills
    exact ⟨fun hT => absurd (hdue.symm.trans hT) (Bool.eq_false_iff.mp hd), fun ⟨_, _, hempty⟩ => absurd hslot hempty⟩
  | ordinary ho hi =>
    obtain ⟨-, hhalt, -⟩ := hi
    exact traceDue_iff_of_completed hp hhalt ho.traceDue fun hslot => hslot.2 (ho.saved.trans hslot.1)
  | wait hi _ ht =>
    subst hi ht
    exact traceDue_iff_of_completed hp (by decide) rfl fun hslot => hslot.2 hslot.1
  | halt hi _ _ ht =>
    subst hi ht
    exact ⟨fun hT => absurd hT Bool.false_ne_true, fun ⟨_, hne, _⟩ => absurd rfl hne⟩
  | rete hi _ c hc ht =>
    subst hi ht
    exact traceDue_iff_of_completed hp (by decide) rfl fun hslot => hslot.2 rfl

end Sys2Proof.Machine
end

section
/-! SUPPORT and settled statements of 70_reset_and_hazards.md. This part: the reset event. -/

namespace Sys2Proof.Machine

/-- A step at a reset event (R180). -/
theorem step_reset {s : State} {es : List EnvEvent} (h : s.env = .reset :: es) :
    step s = .next (resetCpu (dropEvent s)) := by
  simp [step, boundary, dropEvent, h]

/-- Reset takes every bit of `sr` but H from `RESET_SR` (R180, R181). -/
theorem getLsbD_resetSr_of_ne (p : Params) {j : Nat} (hj : j ≠ 13) : (resetSr p).getLsbD j = p.resetSr.getLsbD j :=
  (getLsbD_setBit (by decide) p.resetSr false j).trans (if_neg hj)

/-- Settles O46: the reset event clears H, and a step of a halted CPU that is no reset keeps `sr`. -/
theorem resetLeavesHalt : Obligations.ResetLeavesHalt := by
  refine ⟨fun s _ he => ⟨_, step_reset he, srH_resetSr s.params⟩, fun s t hh hstep hleft => ?_⟩
  by_contra hreset
  have hkept : srH t.sr = srH s.sr := by
    obtain ⟨hsr, -⟩ := haltedUntilReset s t hh (not_exists.mp hreset) hstep
    rw [hsr]
  exact absurd (hkept.trans hh) (Bool.eq_false_iff.mp hleft)

/-- Settles O47: `sr` by its bits, every other field as `resetCpu` sets or keeps it. -/
theorem resetEventValues : Obligations.ResetEventValues := fun s _ he =>
  ⟨_, step_reset he, fun _ hj => getLsbD_resetSr_of_ne s.params hj,
    rfl, rfl, rfl, rfl, fun _ => rfl, rfl, rfl, rfl, rfl, congrArg List.tail he⟩

end Sys2Proof.Machine
end
